-- ==== Sys2Proof/Word.lean ====
section
/-! DEFINITION. The Word: the 16-bit unit of every register, memory cell and instruction (`spec/00_scope.md` R9, R15). -/

namespace Sys2Proof

/-- A 16-bit pattern (R9). `BitVec.toNat` is the spec's `unsigned`, `BitVec.toInt` its `signed`, and `BitVec.ofNat 16`
and `BitVec.ofInt 16` are its `trunc16`. -/
abbrev Word := BitVec 16

end Sys2Proof
end

