-- ==== Sys2Proof/Syntax/Fields.lean ====
section
/-! DEFINITION. The fields of the two instruction formats (`spec/30_encoding.md` R62, R63, R66 to R69, R73). -/

namespace Sys2Proof

/-- The operand-source bit `a = w[12]` (R66): the ALU's second input is `A`, or the data-store cell at `mask15(A)`. -/
inductive Source where
  | regA
  | cell
  deriving DecidableEq, Repr

/-- The 18 ALU operations in the document's order (R67, R101 to R118). `x` is `D`, `y` the resolved operand. -/
inductive AluOp where
  | zero
  | one
  | negOne
  | x
  | y
  | notX
  | notY
  | negX
  | negY
  | incX
  | incY
  | decX
  | decY
  | add
  | sub
  | rsub
  | and
  | or
  deriving DecidableEq, Repr

/-- The destination field (R68, R120): three independent enables, for `A`, `D` and the data cell `M`. -/
structure Dest where
  a : Bool
  d : Bool
  m : Bool
  deriving DecidableEq, Repr

/-- The jump field (R69, R132 to R139): eight predicates over the signed result. -/
inductive Jump where
  | never
  | jgt
  | jeq
  | jge
  | jlt
  | jne
  | jle
  | jmp
  deriving DecidableEq, Repr

/-- What `classify` reads from a word (R73): total, the compute code not yet checked. -/
inductive Fields where
  | addressLoad (v : Word)
  | compute (a : Source) (c : BitVec 6) (d : Dest) (j : Jump)
  deriving DecidableEq, Repr

end Sys2Proof
end

