-- ==== Sys2Proof/Syntax.lean ====
section
/-! DEFINITION. The instructions: one constructor for each row of `spec/opcode_table.json` (`spec/30_encoding.md` R60, R62, R63, R67).
A compute row carries its destination and jump fields. A name that ends in `ReadM` is an `[a=1]` spelling of R75: the operation
ignores the operand, but the data cell is read all the same (R88). -/

namespace Sys2Proof

/-- One constructor per opcode-table row. -/
inductive Instr where
  /-- `@v` (R80); `v` is the zero-extended literal of R73, so a well-formed one has bit 15 clear. -/
  | atV (v : Word)
  /-- `dest=0;jump` (R101): constant 0, operand source `A`. -/
  | zero (d : Dest) (j : Jump)
  /-- `dest=0[a=1];jump` (R101): constant 0, operand source `M`. -/
  | zeroReadM (d : Dest) (j : Jump)
  /-- `dest=1;jump` (R102): constant 1, operand source `A`. -/
  | one (d : Dest) (j : Jump)
  /-- `dest=1[a=1];jump` (R102): constant 1, operand source `M`. -/
  | oneReadM (d : Dest) (j : Jump)
  /-- `dest=-1;jump` (R103): constant -1, operand source `A`. -/
  | negOne (d : Dest) (j : Jump)
  /-- `dest=-1[a=1];jump` (R103): constant -1, operand source `M`. -/
  | negOneReadM (d : Dest) (j : Jump)
  /-- `dest=D;jump` (R104): pass D, operand source `A`. -/
  | passD (d : Dest) (j : Jump)
  /-- `dest=D[a=1];jump` (R104): pass D, operand source `M`. -/
  | passDReadM (d : Dest) (j : Jump)
  /-- `dest=A;jump` (R105): pass the operand, operand source `A`. -/
  | passA (d : Dest) (j : Jump)
  /-- `dest=M;jump` (R105): pass the operand, operand source `M`. -/
  | passM (d : Dest) (j : Jump)
  /-- `dest=!D;jump` (R106): bitwise not of D, operand source `A`. -/
  | notD (d : Dest) (j : Jump)
  /-- `dest=!D[a=1];jump` (R106): bitwise not of D, operand source `M`. -/
  | notDReadM (d : Dest) (j : Jump)
  /-- `dest=!A;jump` (R107): bitwise not of the operand, operand source `A`. -/
  | notA (d : Dest) (j : Jump)
  /-- `dest=!M;jump` (R107): bitwise not of the operand, operand source `M`. -/
  | notM (d : Dest) (j : Jump)
  /-- `dest=-D;jump` (R108): negation of D, operand source `A`. -/
  | negD (d : Dest) (j : Jump)
  /-- `dest=-D[a=1];jump` (R108): negation of D, operand source `M`. -/
  | negDReadM (d : Dest) (j : Jump)
  /-- `dest=-A;jump` (R109): negation of the operand, operand source `A`. -/
  | negA (d : Dest) (j : Jump)
  /-- `dest=-M;jump` (R109): negation of the operand, operand source `M`. -/
  | negM (d : Dest) (j : Jump)
  /-- `dest=D+1;jump` (R110): increment of D, operand source `A`. -/
  | incD (d : Dest) (j : Jump)
  /-- `dest=D+1[a=1];jump` (R110): increment of D, operand source `M`. -/
  | incDReadM (d : Dest) (j : Jump)
  /-- `dest=A+1;jump` (R111): increment of the operand, operand source `A`. -/
  | incA (d : Dest) (j : Jump)
  /-- `dest=M+1;jump` (R111): increment of the operand, operand source `M`. -/
  | incM (d : Dest) (j : Jump)
  /-- `dest=D-1;jump` (R112): decrement of D, operand source `A`. -/
  | decD (d : Dest) (j : Jump)
  /-- `dest=D-1[a=1];jump` (R112): decrement of D, operand source `M`. -/
  | decDReadM (d : Dest) (j : Jump)
  /-- `dest=A-1;jump` (R113): decrement of the operand, operand source `A`. -/
  | decA (d : Dest) (j : Jump)
  /-- `dest=M-1;jump` (R113): decrement of the operand, operand source `M`. -/
  | decM (d : Dest) (j : Jump)
  /-- `dest=D+A;jump` (R114): sum of D and the operand, operand source `A`. -/
  | addA (d : Dest) (j : Jump)
  /-- `dest=D+M;jump` (R114): sum of D and the operand, operand source `M`. -/
  | addM (d : Dest) (j : Jump)
  /-- `dest=D-A;jump` (R115): D minus the operand, operand source `A`. -/
  | subA (d : Dest) (j : Jump)
  /-- `dest=D-M;jump` (R115): D minus the operand, operand source `M`. -/
  | subM (d : Dest) (j : Jump)
  /-- `dest=A-D;jump` (R116): the operand minus D, operand source `A`. -/
  | rsubA (d : Dest) (j : Jump)
  /-- `dest=M-D;jump` (R116): the operand minus D, operand source `M`. -/
  | rsubM (d : Dest) (j : Jump)
  /-- `dest=D&A;jump` (R117): bitwise and of D and the operand, operand source `A`. -/
  | andA (d : Dest) (j : Jump)
  /-- `dest=D&M;jump` (R117): bitwise and of D and the operand, operand source `M`. -/
  | andM (d : Dest) (j : Jump)
  /-- `dest=D|A;jump` (R118): bitwise or of D and the operand, operand source `A`. -/
  | orA (d : Dest) (j : Jump)
  /-- `dest=D|M;jump` (R118): bitwise or of D and the operand, operand source `M`. -/
  | orM (d : Dest) (j : Jump)
  deriving DecidableEq, Repr

end Sys2Proof
end

