-- ==== Sys2Proof/WellFormed.lean ====
section
/-! DEFINITION. Which instructions have an encoding (`spec/30_encoding.md` R65, R68, R69, R76). -/

namespace Sys2Proof

/-- `@n` requires `0 <= n <= 32767` (R76): bit 15 of the literal is clear. Every destination value and every jump value is legal
(R68, R69), and the compute operations are the 18 of R67 by their type, so no compute instruction is ill-formed. -/
def Instr.wf : Instr → Bool
  | .atV v => !v.msb
  | .zero _ _  | .zeroReadM _ _ => true
  | .one _ _  | .oneReadM _ _ => true
  | .negOne _ _  | .negOneReadM _ _ => true
  | .passD _ _  | .passDReadM _ _ => true
  | .passA _ _  | .passM _ _ => true
  | .notD _ _  | .notDReadM _ _ => true
  | .notA _ _  | .notM _ _ => true
  | .negD _ _  | .negDReadM _ _ => true
  | .negA _ _  | .negM _ _ => true
  | .incD _ _  | .incDReadM _ _ => true
  | .incA _ _  | .incM _ _ => true
  | .decD _ _  | .decDReadM _ _ => true
  | .decA _ _  | .decM _ _ => true
  | .addA _ _  | .addM _ _ => true
  | .subA _ _  | .subM _ _ => true
  | .rsubA _ _  | .rsubM _ _ => true
  | .andA _ _  | .andM _ _ => true
  | .orA _ _  | .orM _ _ => true

/-- `Instr.wf` as a proposition. -/
abbrev Instr.WellFormed (i : Instr) : Prop := i.wf = true

end Sys2Proof
end

