-- ==== Sys2Proof/Decode.lean ====
section
/-! DEFINITION. The decoder and, after it, the encoder (`spec/30_encoding.md` R62 to R76). The bit patterns of the compute codes,
destinations and jump codes are general knowledge by the spec's own mark (G1, G3, G5; logs 6 to 8); each stands in one table here,
which both directions read. -/

namespace Sys2Proof

/-- `w[hi:lo]` (R8). -/
def bitField (w : Word) (lo width : Nat) : BitVec width := w.extractLsb' lo width

/-- The 18 operations, in the order of R67. -/
def AluOp.all : List AluOp :=
  [.zero, .one, .negOne, .x, .y, .notX, .notY, .negX, .negY,
   .incX, .incY, .decX, .decY, .add, .sub, .rsub, .and, .or]

/-- The compute code of each operation (R67, D1): the one table of compute codes. -/
def AluOp.code : AluOp → BitVec 6
  | .zero => 0b101010#6
  | .one => 0b111111#6
  | .negOne => 0b111010#6
  | .x => 0b001100#6
  | .y => 0b110000#6
  | .notX => 0b001101#6
  | .notY => 0b110001#6
  | .negX => 0b001111#6
  | .negY => 0b110011#6
  | .incX => 0b011111#6
  | .incY => 0b110111#6
  | .decX => 0b001110#6
  | .decY => 0b110010#6
  | .add => 0b000010#6
  | .sub => 0b010011#6
  | .rsub => 0b000111#6
  | .and => 0b000000#6
  | .or => 0b010101#6

/-- The operation a compute code names, if it is one of the 18 (R67, R70, R119, D5). -/
def AluOp.ofCode (c : BitVec 6) : Option AluOp := AluOp.all.find? fun op => op.code == c

/-- The operand-source bit (R66). -/
def Source.bit : Source → BitVec 1
  | .regA => 0b0#1
  | .cell => 0b1#1

/-- The operand source a bit selects (R66). -/
def Source.ofBit (b : BitVec 1) : Source := if b = 0b1#1 then .cell else .regA

/-- The destination field `d = w[5:3]` (R68, D2): `A` at its bit 2, `D` at its bit 1, `M` at its bit 0. -/
def Dest.bits (d : Dest) : BitVec 3 := BitVec.ofBool d.a ++ BitVec.ofBool d.d ++ BitVec.ofBool d.m

/-- The enables a destination field holds (R68). -/
def Dest.ofBits (b : BitVec 3) : Dest := ⟨b.getLsbD 2, b.getLsbD 1, b.getLsbD 0⟩

/-- The eight jump fields, in the order of R69. -/
def Jump.all : List Jump := [.never, .jgt, .jeq, .jge, .jlt, .jne, .jle, .jmp]

/-- The value of each jump code (R69, D3): the one table of jump codes. -/
def Jump.code : Jump → BitVec 3
  | .never => 0b000#3
  | .jgt => 0b001#3
  | .jeq => 0b010#3
  | .jge => 0b011#3
  | .jlt => 0b100#3
  | .jne => 0b101#3
  | .jle => 0b110#3
  | .jmp => 0b111#3

/-- The jump field a code names: all eight values are named (R69, R128), so the default is never taken (`Laws.Jump.code_ofCode`). -/
def Jump.ofCode (c : BitVec 3) : Jump := (Jump.all.find? fun j => j.code == c).getD .never

/-- R73: total over all words, bits 14 and 13 of a compute word dropped (R64, D4), the compute code not checked. -/
def classify (w : Word) : Fields :=
  if w.msb then
    .compute (.ofBit (bitField w 12 1)) (bitField w 6 6) (.ofBits (bitField w 3 3)) (.ofCode (bitField w 0 3))
  else
    .addressLoad ((bitField w 0 15).setWidth 16)

/-- The compute instruction with the given fields: the opcode-table row of an operation and an operand source (R67). -/
def Instr.compute (op : AluOp) (a : Source) (d : Dest) (j : Jump) : Instr :=
  match op, a with
  | .zero, .regA => .zero d j
  | .zero, .cell => .zeroReadM d j
  | .one, .regA => .one d j
  | .one, .cell => .oneReadM d j
  | .negOne, .regA => .negOne d j
  | .negOne, .cell => .negOneReadM d j
  | .x, .regA => .passD d j
  | .x, .cell => .passDReadM d j
  | .y, .regA => .passA d j
  | .y, .cell => .passM d j
  | .notX, .regA => .notD d j
  | .notX, .cell => .notDReadM d j
  | .notY, .regA => .notA d j
  | .notY, .cell => .notM d j
  | .negX, .regA => .negD d j
  | .negX, .cell => .negDReadM d j
  | .negY, .regA => .negA d j
  | .negY, .cell => .negM d j
  | .incX, .regA => .incD d j
  | .incX, .cell => .incDReadM d j
  | .incY, .regA => .incA d j
  | .incY, .cell => .incM d j
  | .decX, .regA => .decD d j
  | .decX, .cell => .decDReadM d j
  | .decY, .regA => .decA d j
  | .decY, .cell => .decM d j
  | .add, .regA => .addA d j
  | .add, .cell => .addM d j
  | .sub, .regA => .subA d j
  | .sub, .cell => .subM d j
  | .rsub, .regA => .rsubA d j
  | .rsub, .cell => .rsubM d j
  | .and, .regA => .andA d j
  | .and, .cell => .andM d j
  | .or, .regA => .orA d j
  | .or, .cell => .orM d j

/-- What a word decodes to: an instruction, or the rejection of a compute word whose code is none of the 18 (R70), with the operand
source the executor resolves before it checks the code (R88, R89) and the code the fault record keeps (R141). -/
inductive Decoded where
  | instruction (i : Instr)
  | undecodableInstruction (a : Source) (c : BitVec 6)
  deriving DecidableEq, Repr

/-- Decoding a word (R73, R89): total, rejecting by name. -/
def decode (w : Word) : Decoded :=
  match classify w with
  | .addressLoad v => .instruction (.atV v)
  | .compute a c d j =>
    match AluOp.ofCode c with
    | some op => .instruction (.compute op a d j)
    | none => .undecodableInstruction a c

/-- The host's reading of an opcode-table row: an instruction is one 16-bit word (R61), so bit 0 of `w` is bit 0 of the word. -/
def decodeTableWord (nbits w : Nat) : Option Instr :=
  match decode (BitVec.ofNat 16 (w % 2 ^ nbits)) with
  | .instruction i => some i
  | .undecodableInstruction _ _ => none

/-- `0xE000 | (a << 12) | (c << 6) | (d << 3) | j` (R76): the encoder emits `11` in bits 14 and 13 (R64). -/
def encodeCompute (op : AluOp) (a : Source) (d : Dest) (j : Jump) : Word :=
  0b111#3 ++ a.bit ++ op.code ++ d.bits ++ j.code

/-- The word of a well-formed instruction (R76). -/
def encode : Instr → Word
  | .atV v => v
  | .zero d j => encodeCompute .zero .regA d j
  | .zeroReadM d j => encodeCompute .zero .cell d j
  | .one d j => encodeCompute .one .regA d j
  | .oneReadM d j => encodeCompute .one .cell d j
  | .negOne d j => encodeCompute .negOne .regA d j
  | .negOneReadM d j => encodeCompute .negOne .cell d j
  | .passD d j => encodeCompute .x .regA d j
  | .passDReadM d j => encodeCompute .x .cell d j
  | .passA d j => encodeCompute .y .regA d j
  | .passM d j => encodeCompute .y .cell d j
  | .notD d j => encodeCompute .notX .regA d j
  | .notDReadM d j => encodeCompute .notX .cell d j
  | .notA d j => encodeCompute .notY .regA d j
  | .notM d j => encodeCompute .notY .cell d j
  | .negD d j => encodeCompute .negX .regA d j
  | .negDReadM d j => encodeCompute .negX .cell d j
  | .negA d j => encodeCompute .negY .regA d j
  | .negM d j => encodeCompute .negY .cell d j
  | .incD d j => encodeCompute .incX .regA d j
  | .incDReadM d j => encodeCompute .incX .cell d j
  | .incA d j => encodeCompute .incY .regA d j
  | .incM d j => encodeCompute .incY .cell d j
  | .decD d j => encodeCompute .decX .regA d j
  | .decDReadM d j => encodeCompute .decX .cell d j
  | .decA d j => encodeCompute .decY .regA d j
  | .decM d j => encodeCompute .decY .cell d j
  | .addA d j => encodeCompute .add .regA d j
  | .addM d j => encodeCompute .add .cell d j
  | .subA d j => encodeCompute .sub .regA d j
  | .subM d j => encodeCompute .sub .cell d j
  | .rsubA d j => encodeCompute .rsub .regA d j
  | .rsubM d j => encodeCompute .rsub .cell d j
  | .andA d j => encodeCompute .and .regA d j
  | .andM d j => encodeCompute .and .cell d j
  | .orA d j => encodeCompute .or .regA d j
  | .orM d j => encodeCompute .or .cell d j

end Sys2Proof
end

