-- ==== Sys2Proof/Machine/Alu.lean ====
section
/-! DEFINITION. The ALU (`spec/42_alu_operations.md` R100 to R119): two 16-bit inputs, one 16-bit output, arithmetic modulo 2^16. -/

namespace Sys2Proof.Machine

/-- `ALU(c, X, Y)` for each of the 18 operations (R101 to R118); no other code has a value (R119). -/
def alu (op : AluOp) (x y : Word) : Word :=
  match op with
  | .zero => 0x0000#16
  | .one => 0x0001#16
  | .negOne => 0xFFFF#16
  | .x => x
  | .y => y
  | .notX => ~~~x
  | .notY => ~~~y
  | .negX => -x
  | .negY => -y
  | .incX => x + 1#16
  | .incY => y + 1#16
  | .decX => x - 1#16
  | .decY => y - 1#16
  | .add => x + y
  | .sub => x - y
  | .rsub => y - x
  | .and => x &&& y
  | .or => x ||| y

end Sys2Proof.Machine
end

