-- ==== Sys2Proof/Config.lean ====
section
/-! DEFINITION. The constants of this hardware (`spec/00_scope.md` R7). `DATA_WORDS` is a parameter and stands in `State` (log 1);
`SCREEN_BASE` is an OPEN parameter and is an argument of the sampler (log 2). -/

namespace Sys2Proof.Config

/-- `PROG_WORDS` (R7, R27): the program store's capacity, and the number of values `PC` can take (R23). -/
def progWords : Nat := 32768

/-- This hardware's `DATA_WORDS` (R7, R28). -/
def dataWordsOfThisHardware : Nat := 32768

/-- `SCREEN_W` (R7, R160). -/
def screenWidth : Nat := 512

/-- `SCREEN_H` (R7, R160). -/
def screenHeight : Nat := 256

/-- Pixels packed in one word (R162). -/
def pixelsPerWord : Nat := 16

/-- Words in one row of the screen (R162, C4). -/
def screenRowWords : Nat := 32

/-- Words in the screen window (R161). -/
def screenWords : Nat := 8192

end Sys2Proof.Config
end

