-- ==== Sys2Proof/Machine/State.lean ====
section
/-! DEFINITION. The machine's state, its faults and its state after reset (`spec/10_state.md`, `spec/60_exceptions.md` R141). -/

namespace Sys2Proof.Machine

/-- A word-addressed store (`spec/20_memory.md` R40, R42): (index, Word) pairs with indices strictly rising and no Word 0, since an
unlisted cell reads 0 in both stores (R33). The spec's unit of memory is the Word and it has no bytes (R43), so a cell holds a Word
(log 5). `Memory.wf` says the canonical form holds. -/
abbrev Memory := List (Nat × Word)

/-- A fatal condition with the fields R141 records: `PC`, the instruction word where there is one, and the detail. The step raises it
as its report to the host (R153, R174). The same value is what the latch `FAULT` holds (R30). -/
inductive Fault where
  /-- Code 1 (R145): raised by the step for a compute word whose compute code is none of the 18. The spec names this fault, so stopping
  is safe as far as the compute codes are right (log 6). -/
  | undecodableInstruction (pc word : Word) (c : BitVec 6)
  /-- Code 2 (R148): raised by the fetch at `PC >= PROG_WORDS`, which no state within the invariant reaches. Safe. -/
  | outOfRangeFetch (pc : Word)
  /-- Code 3 (R147, R88): raised by the operand read of a compute instruction with `a = 1` when `ea >= DATA_WORDS`. The spec names this
  fault; safe. -/
  | outOfRangeOperandRead (pc word : Word) (ea : Nat)
  /-- Code 4 (R147, R121): raised by the memory-destination write of a compute instruction when `ea >= DATA_WORDS`. The spec names this
  fault; safe. -/
  | outOfRangeDataWrite (pc word : Word) (ea : Nat)
  deriving DecidableEq, Repr

/-- Reasons the model gives an instruction no meaning. -/
inductive Refusal where
  /-- An instruction without a meaning, by its mnemonic: raised by no arm of `exec`, every instruction has its meaning. Safe. -/
  | notModelled (mnemonic : String)
  deriving DecidableEq, Repr

/-- The complete engine state (R32), with two fields of the model's own: `loadOpen` and `dataWords`. -/
structure State where
  /-- `A`, the address register (R22). -/
  regA : Word
  /-- `D`, the data register (R21). -/
  regD : Word
  /-- `PC`, the program counter: a 16-bit register, always 0 to 32767 (R23, C8; log 29). -/
  pc : Word
  /-- `PROG`, the program store (R27). -/
  prog : Memory
  /-- `DATA`, the data store (R28). -/
  data : Memory
  /-- `LEN`, the number of words the host's `load` copied (R29). -/
  len : Nat
  /-- `FAULT`, the fault latch (R30). -/
  fault : Option Fault
  /-- Whether `load` is still accepted: neither a load nor a step has happened (R173, R178). DESIGN CHOICE: the model's own field (log 4). -/
  loadOpen : Bool
  /-- `DATA_WORDS`, the data store's capacity: configuration, changed by nothing (R7, R31). DESIGN CHOICE: held here (log 1). -/
  dataWords : Nat
  deriving DecidableEq, Repr

/-- Reset is the engine's construction (R170, R33), for a data store of the given capacity. -/
def State.construct (dataWords : Nat) : State where
  regA := 0
  regD := 0
  pc := 0
  prog := []
  data := []
  len := 0
  fault := none
  loadOpen := true
  dataWords := dataWords

/-- This hardware right after reset: `DATA_WORDS` = 32768 (R28), nothing loaded (R170). -/
def State.reset : State := State.construct Config.dataWordsOfThisHardware

end Sys2Proof.Machine
end

