-- ==== Sys2Proof/Machine/Ops.lean ====
section
/-! DEFINITION. The shared operations on memory, registers and the fault latch (`spec/00_scope.md` R10 to R13, `spec/20_memory.md`,
`spec/60_exceptions.md` section 1). -/

namespace Sys2Proof.Machine

/-- `mask15(w)` (R10): the one conversion from a Word to a memory index. -/
def mask15 (w : Word) : Nat := (w.extractLsb' 0 15).toNat

/-- What a cell that is not listed holds (R33): 0, in both stores. -/
def unlistedWord : Word := 0

/-- The Word at an index of a store (R12, R49). -/
def Memory.read : Memory → Nat → Word
  | [], _ => unlistedWord
  | (k, v) :: m, i => if k = i then v else Memory.read m i

/-- List a cell, or leave it out where the Word is what an unlisted cell holds. -/
def Memory.cons (i : Nat) (v : Word) (m : Memory) : Memory := if v = unlistedWord then m else (i, v) :: m

/-- Store a Word at an index of a store (R12, R47), keeping the canonical form. -/
def Memory.write : Memory → Nat → Word → Memory
  | [], i, v => Memory.cons i v []
  | (k, u) :: m, i, v =>
    if i < k then Memory.cons i v ((k, u) :: m)
    else if i = k then Memory.cons i v m
    else (k, u) :: Memory.write m i v

/-- Store a sequence of Words at rising indices from `i` (R172). -/
def Memory.writeFrom : Memory → Nat → List Word → Memory
  | m, _, [] => m
  | m, i, w :: ws => Memory.writeFrom (Memory.write m i w) (i + 1) ws

/-- The canonical form above a lower bound: indices strictly rising, no entry an unlisted cell would equal. -/
def Memory.wfFrom : Nat → Memory → Bool
  | _, [] => true
  | lo, (k, v) :: m => decide (lo ≤ k) && v != unlistedWord && Memory.wfFrom (k + 1) m

/-- The canonical form of a store. -/
def Memory.wf (m : Memory) : Bool := Memory.wfFrom 0 m

/-- Every listed index is below the capacity. -/
def Memory.within (capacity : Nat) (m : Memory) : Bool := m.all fun c => decide (c.1 < capacity)

/-- `A <- v` (R11). -/
def setA (v : Word) (s : State) : State := { s with regA := v }

/-- `D <- v` (R11). -/
def setD (v : Word) (s : State) : State := { s with regD := v }

/-- `pc <- target` (R11): the target is an index. -/
def setPc (target : Nat) (s : State) : State := { s with pc := BitVec.ofNat 16 target }

/-- `DATA[i] <- v`. -/
def setData (i : Nat) (v : Word) (s : State) : State := { s with data := Memory.write s.data i v }

/-- After a step or a load the host's `load` is refused (R173, R178; log 4). -/
def closeLoad (s : State) : State := { s with loadOpen := false }

/-- The word of the instruction being executed: during a step `PC` is the fetch index (R23), and nothing writes the program store (R52),
so it is the word a fault record keeps (R141). -/
def instructionWord (s : State) : Word := Memory.read s.prog s.pc.toNat

/-- `ProgRead(i)` (R12), for the fetch at `PC`. -/
def progRead (s : State) (i : Nat) : Except Fault Word :=
  if i < Config.progWords then .ok (Memory.read s.prog i) else .error (.outOfRangeFetch s.pc)

/-- `MemRead(ea, 1)` (R12): out of range at or beyond the capacity (R147, D25). -/
def memRead (s : State) (ea : Nat) : Except Fault Word :=
  if ea < s.dataWords then .ok (Memory.read s.data ea) else .error (.outOfRangeOperandRead s.pc (instructionWord s) ea)

/-- `MemWrite(ea, 1, v)` (R12): out of range at or beyond the capacity (R147, D25). -/
def memWrite (s : State) (ea : Nat) (v : Word) : Except Fault State :=
  if ea < s.dataWords then .ok (setData ea v s) else .error (.outOfRangeDataWrite s.pc (instructionWord s) ea)

/-- TAKING A FAULT, the report: `raise` (R13) ends the step with the fatal condition, and control passes to the host, which sees the
fault as the result of the step (R153, R174). No vector, no mode, no saved register: there is no trap entry and no return from one
(R153, R154). The state then is the one before the step with the latch set, `latchFault` (R143; log 3). -/
def raise (r : Fault) : Host.Outcome State Fault Refusal := .fault r

/-- TAKING A FAULT, the state: only `FAULT` changes (R143). -/
def latchFault (r : Fault) (s : State) : State := { s with fault := some r }

/-- The numeric code of a fault record (R141, D22). -/
def Fault.code : Fault → Nat
  | .undecodableInstruction _ _ _ => 1
  | .outOfRangeFetch _ => 2
  | .outOfRangeOperandRead _ _ _ => 3
  | .outOfRangeDataWrite _ _ _ => 4

/-- The `pc` of a fault record (R141). -/
def Fault.pc : Fault → Word
  | .undecodableInstruction p _ _ => p
  | .outOfRangeFetch p => p
  | .outOfRangeOperandRead p _ _ => p
  | .outOfRangeDataWrite p _ _ => p

/-- The `word` of a fault record (R141): none for a fetch. -/
def Fault.word : Fault → Option Word
  | .undecodableInstruction _ w _ => some w
  | .outOfRangeFetch _ => none
  | .outOfRangeOperandRead _ w _ => some w
  | .outOfRangeDataWrite _ w _ => some w

/-- The `detail` of a fault record (R141): the compute code, `PC`, or `ea`. -/
def Fault.detail : Fault → Nat
  | .undecodableInstruction _ _ c => c.toNat
  | .outOfRangeFetch p => p.toNat
  | .outOfRangeOperandRead _ _ ea => ea
  | .outOfRangeDataWrite _ _ ea => ea

/-- The host's placing of one word where the next step fetches: the cell at `PC`, with the latch clear so that a step is taken (log 24). -/
def placeFetchWord (w : Word) (s : State) : State :=
  { s with prog := Memory.write s.prog s.pc.toNat w, fault := none }

end Sys2Proof.Machine
end

