-- ==== Sys2Proof/Machine/Flags.lean ====
section
/-! DEFINITION. The jump predicates and the program counter (`spec/43_destinations_and_jumps.md` R128 to R139). The engine has no flags
(`spec/10_state.md` R25): a predicate reads the signed result of its own instruction and nothing of it is kept. -/

namespace Sys2Proof.Machine

/-- The eight predicates on `s = signed(r)` (R129, R132 to R139). -/
def jumpTaken (j : Jump) (r : Word) : Bool :=
  match j with
  | .never => false
  | .jgt => decide (0 < r.toInt)
  | .jeq => decide (r.toInt = 0)
  | .jge => decide (0 ≤ r.toInt)
  | .jlt => decide (r.toInt < 0)
  | .jne => decide (r.toInt ≠ 0)
  | .jle => decide (r.toInt ≤ 0)
  | .jmp => true

/-- `(PC + 1) mod 32768` (R81, R130; the wrap is D7, log 12). -/
def pcAfter (pc : Word) : Nat := (pc.toNat + 1) % Config.progWords

/-- Not taken: `PC` advances by one (R130); an address instruction does the same (R81). -/
def advance (s : State) : State := setPc (pcAfter s.pc) s

/-- The end of a compute step, in the state after the destination writes: taken, `PC` is `mask15` of the `A` that state holds (R131; the
mask is D8, log 13); else it advances (R130). -/
def jumpOrAdvance (j : Jump) (r : Word) (s : State) : State :=
  if jumpTaken j r then setPc (mask15 s.regA) s else advance s

end Sys2Proof.Machine
end

