-- ==== Sys2Proof/Machine/Operands.lean ====
section
/-! DEFINITION. Operand resolution and destination routing (`spec/41_compute.md` R85 to R88, `spec/43_destinations_and_jumps.md` R120
to R126). -/

namespace Sys2Proof.Machine

/-- `ea = mask15(A)` (R45): the one addressing mode. -/
def effectiveAddress (s : State) : Nat := mask15 s.regA

/-- Operand resolution (R87): the second ALU operand `Y`. With `a = 1` the read is made whatever the operation (R88, D6). -/
def resolveOperand (a : Source) (s : State) : Except Fault Word :=
  match a with
  | .regA => .ok s.regA
  | .cell => memRead s (effectiveAddress s)

/-- The memory destination (R121). -/
def routeMemory (d : Dest) (ea : Nat) (r : Word) (s : State) : Except Fault State :=
  if d.m then memWrite s ea r else .ok s

/-- The `D` destination (R122). -/
def routeD (d : Dest) (r : Word) (s : State) : State := if d.d then setD r s else s

/-- The `A` destination (R123). -/
def routeA (d : Dest) (r : Word) (s : State) : State := if d.a then setA r s else s

/-- Destination routing (R120): each enabled destination receives the same result, the memory cell at the index formed before any write
(R124). -/
def routeResult (d : Dest) (ea : Nat) (r : Word) (s : State) : Except Fault State :=
  match routeMemory d ea r s with
  | .error e => .error e
  | .ok s1 => .ok (routeA d r (routeD d r s1))

end Sys2Proof.Machine
end

