-- ==== Sys2Proof/Machine/Compute.lean ====
section
/-! DEFINITION. The compute instruction as one whole step (`spec/41_compute.md` R85), which each compute instruction's meaning calls. -/

namespace Sys2Proof.Machine

/-- The step of R85 for a legal compute code, in its order: operand, ALU, destination writes, program counter. A raise leaves no state of
its own (R143). -/
def compute (op : AluOp) (a : Source) (d : Dest) (j : Jump) (s : State) : Host.Outcome State Fault Refusal :=
  match resolveOperand a s with
  | .error e => raise e
  | .ok y =>
    match routeResult d (effectiveAddress s) (alu op s.regD y) s with
    | .error e => raise e
    | .ok s1 => .next (jumpOrAdvance j (alu op s.regD y) s1)

/-- The step of R85 for an illegal compute code: the operand is resolved first and can raise its own fault (R88, R152), then the code
check raises `UndecodableInstruction` (R89, R145). -/
def executeUndecodable (a : Source) (c : BitVec 6) (s : State) : Host.Outcome State Fault Refusal :=
  match resolveOperand a s with
  | .error e => raise e
  | .ok _ => raise (.undecodableInstruction s.pc (instructionWord s) c)

end Sys2Proof.Machine
end

