-- ==== Sys2Proof/Machine/AddSub.lean ====
section
/-! DEFINITION. Compute instructions: addition and subtraction (`spec/42_alu_operations.md` section 7, R114 to R116). Each is the whole step of R85 with its own operation and
operand source. -/

namespace Sys2Proof.Machine

/-- `dest=D+A;jump` (R114): sum of D and the operand, operand source `A`. -/
def execAddA (d : Dest) (j : Jump) (s : State) : Host.Outcome State Fault Refusal :=
  compute .add .regA d j s

/-- `dest=D+M;jump` (R114): sum of D and the operand, operand source `M`. -/
def execAddM (d : Dest) (j : Jump) (s : State) : Host.Outcome State Fault Refusal :=
  compute .add .cell d j s

/-- `dest=D-A;jump` (R115): D minus the operand, operand source `A`. -/
def execSubA (d : Dest) (j : Jump) (s : State) : Host.Outcome State Fault Refusal :=
  compute .sub .regA d j s

/-- `dest=D-M;jump` (R115): D minus the operand, operand source `M`. -/
def execSubM (d : Dest) (j : Jump) (s : State) : Host.Outcome State Fault Refusal :=
  compute .sub .cell d j s

/-- `dest=A-D;jump` (R116): the operand minus D, operand source `A`. -/
def execRsubA (d : Dest) (j : Jump) (s : State) : Host.Outcome State Fault Refusal :=
  compute .rsub .regA d j s

/-- `dest=M-D;jump` (R116): the operand minus D, operand source `M`. -/
def execRsubM (d : Dest) (j : Jump) (s : State) : Host.Outcome State Fault Refusal :=
  compute .rsub .cell d j s

end Sys2Proof.Machine
end

