-- ==== Sys2Proof/Machine/AddressLoad.lean ====
section
/-! DEFINITION. The address instruction (`spec/40_address_load.md` R80 to R84). -/

namespace Sys2Proof.Machine

/-- `@v` (R80): `A <- zext_16(w[14:0])`, `PC` advances by one (R81), nothing else is written (R82). The literal of a well-formed `@v`
has bit 15 clear, so taking its low 15 bits changes it only where it has no encoding (log 25). -/
def execAtV (v : Word) (s : State) : Host.Outcome State Fault Refusal :=
  .next (advance (setA (BitVec.ofNat 16 (mask15 v)) s))

end Sys2Proof.Machine
end

