-- ==== Sys2Proof/Machine/Complement.lean ====
section
/-! DEFINITION. Compute instructions: bitwise complement (`spec/42_alu_operations.md` section 4, R106, R107). Each is the whole step of R85 with its own operation and
operand source. -/

namespace Sys2Proof.Machine

/-- `dest=!D;jump` (R106): bitwise not of D, operand source `A`. -/
def execNotD (d : Dest) (j : Jump) (s : State) : Host.Outcome State Fault Refusal :=
  compute .notX .regA d j s

/-- `dest=!D[a=1];jump` (R106): bitwise not of D, operand source `M`. The operation ignores the cell, which is read all the same (R88). -/
def execNotDReadM (d : Dest) (j : Jump) (s : State) : Host.Outcome State Fault Refusal :=
  compute .notX .cell d j s

/-- `dest=!A;jump` (R107): bitwise not of the operand, operand source `A`. -/
def execNotA (d : Dest) (j : Jump) (s : State) : Host.Outcome State Fault Refusal :=
  compute .notY .regA d j s

/-- `dest=!M;jump` (R107): bitwise not of the operand, operand source `M`. -/
def execNotM (d : Dest) (j : Jump) (s : State) : Host.Outcome State Fault Refusal :=
  compute .notY .cell d j s

end Sys2Proof.Machine
end

