-- ==== Sys2Proof/Machine/Constants.lean ====
section
/-! DEFINITION. Compute instructions: the constants 0, 1 and -1 (`spec/42_alu_operations.md` section 2, R101 to R103). Each is the whole step of R85 with its own operation and
operand source. -/

namespace Sys2Proof.Machine

/-- `dest=0;jump` (R101): constant 0, operand source `A`. -/
def execZero (d : Dest) (j : Jump) (s : State) : Host.Outcome State Fault Refusal :=
  compute .zero .regA d j s

/-- `dest=0[a=1];jump` (R101): constant 0, operand source `M`. The operation ignores the cell, which is read all the same (R88). -/
def execZeroReadM (d : Dest) (j : Jump) (s : State) : Host.Outcome State Fault Refusal :=
  compute .zero .cell d j s

/-- `dest=1;jump` (R102): constant 1, operand source `A`. -/
def execOne (d : Dest) (j : Jump) (s : State) : Host.Outcome State Fault Refusal :=
  compute .one .regA d j s

/-- `dest=1[a=1];jump` (R102): constant 1, operand source `M`. The operation ignores the cell, which is read all the same (R88). -/
def execOneReadM (d : Dest) (j : Jump) (s : State) : Host.Outcome State Fault Refusal :=
  compute .one .cell d j s

/-- `dest=-1;jump` (R103): constant -1, operand source `A`. -/
def execNegOne (d : Dest) (j : Jump) (s : State) : Host.Outcome State Fault Refusal :=
  compute .negOne .regA d j s

/-- `dest=-1[a=1];jump` (R103): constant -1, operand source `M`. The operation ignores the cell, which is read all the same (R88). -/
def execNegOneReadM (d : Dest) (j : Jump) (s : State) : Host.Outcome State Fault Refusal :=
  compute .negOne .cell d j s

end Sys2Proof.Machine
end

