-- ==== Sys2Proof/Machine/IncDec.lean ====
section
/-! DEFINITION. Compute instructions: increment and decrement (`spec/42_alu_operations.md` section 6, R110 to R113). Each is the whole step of R85 with its own operation and
operand source. -/

namespace Sys2Proof.Machine

/-- `dest=D+1;jump` (R110): increment of D, operand source `A`. -/
def execIncD (d : Dest) (j : Jump) (s : State) : Host.Outcome State Fault Refusal :=
  compute .incX .regA d j s

/-- `dest=D+1[a=1];jump` (R110): increment of D, operand source `M`. The operation ignores the cell, which is read all the same (R88). -/
def execIncDReadM (d : Dest) (j : Jump) (s : State) : Host.Outcome State Fault Refusal :=
  compute .incX .cell d j s

/-- `dest=A+1;jump` (R111): increment of the operand, operand source `A`. -/
def execIncA (d : Dest) (j : Jump) (s : State) : Host.Outcome State Fault Refusal :=
  compute .incY .regA d j s

/-- `dest=M+1;jump` (R111): increment of the operand, operand source `M`. -/
def execIncM (d : Dest) (j : Jump) (s : State) : Host.Outcome State Fault Refusal :=
  compute .incY .cell d j s

/-- `dest=D-1;jump` (R112): decrement of D, operand source `A`. -/
def execDecD (d : Dest) (j : Jump) (s : State) : Host.Outcome State Fault Refusal :=
  compute .decX .regA d j s

/-- `dest=D-1[a=1];jump` (R112): decrement of D, operand source `M`. The operation ignores the cell, which is read all the same (R88). -/
def execDecDReadM (d : Dest) (j : Jump) (s : State) : Host.Outcome State Fault Refusal :=
  compute .decX .cell d j s

/-- `dest=A-1;jump` (R113): decrement of the operand, operand source `A`. -/
def execDecA (d : Dest) (j : Jump) (s : State) : Host.Outcome State Fault Refusal :=
  compute .decY .regA d j s

/-- `dest=M-1;jump` (R113): decrement of the operand, operand source `M`. -/
def execDecM (d : Dest) (j : Jump) (s : State) : Host.Outcome State Fault Refusal :=
  compute .decY .cell d j s

end Sys2Proof.Machine
end

