-- ==== Sys2Proof/Machine/Logic.lean ====
section
/-! DEFINITION. Compute instructions: bitwise and and or (`spec/42_alu_operations.md` section 8, R117, R118). Each is the whole step of R85 with its own operation and
operand source. -/

namespace Sys2Proof.Machine

/-- `dest=D&A;jump` (R117): bitwise and of D and the operand, operand source `A`. -/
def execAndA (d : Dest) (j : Jump) (s : State) : Host.Outcome State Fault Refusal :=
  compute .and .regA d j s

/-- `dest=D&M;jump` (R117): bitwise and of D and the operand, operand source `M`. -/
def execAndM (d : Dest) (j : Jump) (s : State) : Host.Outcome State Fault Refusal :=
  compute .and .cell d j s

/-- `dest=D|A;jump` (R118): bitwise or of D and the operand, operand source `A`. -/
def execOrA (d : Dest) (j : Jump) (s : State) : Host.Outcome State Fault Refusal :=
  compute .or .regA d j s

/-- `dest=D|M;jump` (R118): bitwise or of D and the operand, operand source `M`. -/
def execOrM (d : Dest) (j : Jump) (s : State) : Host.Outcome State Fault Refusal :=
  compute .or .cell d j s

end Sys2Proof.Machine
end

