-- ==== Sys2Proof/Machine/Moves.lean ====
section
/-! DEFINITION. Compute instructions: the moves (`spec/42_alu_operations.md` section 3, R104, R105). Each is the whole step of R85 with its own operation and
operand source. -/

namespace Sys2Proof.Machine

/-- `dest=D;jump` (R104): pass D, operand source `A`. -/
def execPassD (d : Dest) (j : Jump) (s : State) : Host.Outcome State Fault Refusal :=
  compute .x .regA d j s

/-- `dest=D[a=1];jump` (R104): pass D, operand source `M`. The operation ignores the cell, which is read all the same (R88). -/
def execPassDReadM (d : Dest) (j : Jump) (s : State) : Host.Outcome State Fault Refusal :=
  compute .x .cell d j s

/-- `dest=A;jump` (R105): pass the operand, operand source `A`. -/
def execPassA (d : Dest) (j : Jump) (s : State) : Host.Outcome State Fault Refusal :=
  compute .y .regA d j s

/-- `dest=M;jump` (R105): pass the operand, operand source `M`. -/
def execPassM (d : Dest) (j : Jump) (s : State) : Host.Outcome State Fault Refusal :=
  compute .y .cell d j s

end Sys2Proof.Machine
end

