-- ==== Sys2Proof/Machine/Negation.lean ====
section
/-! DEFINITION. Compute instructions: negation (`spec/42_alu_operations.md` section 5, R108, R109). Each is the whole step of R85 with its own operation and
operand source. -/

namespace Sys2Proof.Machine

/-- `dest=-D;jump` (R108): negation of D, operand source `A`. -/
def execNegD (d : Dest) (j : Jump) (s : State) : Host.Outcome State Fault Refusal :=
  compute .negX .regA d j s

/-- `dest=-D[a=1];jump` (R108): negation of D, operand source `M`. The operation ignores the cell, which is read all the same (R88). -/
def execNegDReadM (d : Dest) (j : Jump) (s : State) : Host.Outcome State Fault Refusal :=
  compute .negX .cell d j s

/-- `dest=-A;jump` (R109): negation of the operand, operand source `A`. -/
def execNegA (d : Dest) (j : Jump) (s : State) : Host.Outcome State Fault Refusal :=
  compute .negY .regA d j s

/-- `dest=-M;jump` (R109): negation of the operand, operand source `M`. -/
def execNegM (d : Dest) (j : Jump) (s : State) : Host.Outcome State Fault Refusal :=
  compute .negY .cell d j s

end Sys2Proof.Machine
end

