-- ==== Sys2Proof/Machine/Dispatch.lean ====
section
/-! DEFINITION. One arm for each constructor of `Instr`: each instruction's meaning. -/

namespace Sys2Proof.Machine

/-- The effect of one instruction (`spec/40_address_load.md` R80, `spec/41_compute.md` R85). -/
def exec (i : Instr) (s : State) : Host.Outcome State Fault Refusal :=
  match i with
  | .atV v => Sys2Proof.Machine.execAtV v s
  | .zero d j => Sys2Proof.Machine.execZero d j s
  | .zeroReadM d j => Sys2Proof.Machine.execZeroReadM d j s
  | .one d j => Sys2Proof.Machine.execOne d j s
  | .oneReadM d j => Sys2Proof.Machine.execOneReadM d j s
  | .negOne d j => Sys2Proof.Machine.execNegOne d j s
  | .negOneReadM d j => Sys2Proof.Machine.execNegOneReadM d j s
  | .passD d j => Sys2Proof.Machine.execPassD d j s
  | .passDReadM d j => Sys2Proof.Machine.execPassDReadM d j s
  | .passA d j => Sys2Proof.Machine.execPassA d j s
  | .passM d j => Sys2Proof.Machine.execPassM d j s
  | .notD d j => Sys2Proof.Machine.execNotD d j s
  | .notDReadM d j => Sys2Proof.Machine.execNotDReadM d j s
  | .notA d j => Sys2Proof.Machine.execNotA d j s
  | .notM d j => Sys2Proof.Machine.execNotM d j s
  | .negD d j => Sys2Proof.Machine.execNegD d j s
  | .negDReadM d j => Sys2Proof.Machine.execNegDReadM d j s
  | .negA d j => Sys2Proof.Machine.execNegA d j s
  | .negM d j => Sys2Proof.Machine.execNegM d j s
  | .incD d j => Sys2Proof.Machine.execIncD d j s
  | .incDReadM d j => Sys2Proof.Machine.execIncDReadM d j s
  | .incA d j => Sys2Proof.Machine.execIncA d j s
  | .incM d j => Sys2Proof.Machine.execIncM d j s
  | .decD d j => Sys2Proof.Machine.execDecD d j s
  | .decDReadM d j => Sys2Proof.Machine.execDecDReadM d j s
  | .decA d j => Sys2Proof.Machine.execDecA d j s
  | .decM d j => Sys2Proof.Machine.execDecM d j s
  | .addA d j => Sys2Proof.Machine.execAddA d j s
  | .addM d j => Sys2Proof.Machine.execAddM d j s
  | .subA d j => Sys2Proof.Machine.execSubA d j s
  | .subM d j => Sys2Proof.Machine.execSubM d j s
  | .rsubA d j => Sys2Proof.Machine.execRsubA d j s
  | .rsubM d j => Sys2Proof.Machine.execRsubM d j s
  | .andA d j => Sys2Proof.Machine.execAndA d j s
  | .andM d j => Sys2Proof.Machine.execAndM d j s
  | .orA d j => Sys2Proof.Machine.execOrA d j s
  | .orM d j => Sys2Proof.Machine.execOrM d j s

end Sys2Proof.Machine
end

