-- ==== Sys2Proof/Machine/Fetch.lean ====
section
/-! DEFINITION. One fetch-decode-execute-advance cycle (`spec/20_memory.md` R54, `spec/70_reset_and_hazards.md` R175). -/

namespace Sys2Proof.Machine

/-- What a fetched word does (R175): it is classified and decoded (R73), and its instruction is executed. -/
def executeWord (w : Word) (s : State) : Host.Outcome State Fault Refusal :=
  match decode w with
  | .instruction i => exec i s
  | .undecodableInstruction a c => executeUndecodable a c s

/-- The cycle of R175 for an engine without a fault. From here on a load is refused (R173). -/
def fetchDecodeExecute (s : State) : Host.Outcome State Fault Refusal :=
  match progRead s s.pc.toNat with
  | .error e => raise e
  | .ok w => executeWord w (closeLoad s)

end Sys2Proof.Machine
end

