-- ==== Sys2Proof/Machine/Step.lean ====
section
/-! DEFINITION. The step (`spec/70_reset_and_hazards.md` R174, R175) and where it fetches. -/

namespace Sys2Proof.Machine

/-- `step()` (R174): a latched fault is returned (R144), otherwise one cycle runs. -/
def step (s : State) : Host.Outcome State Fault Refusal :=
  match s.fault with
  | some r => raise r
  | none => fetchDecodeExecute s

/-- The state in which the next step fetches the given instruction: one word at `PC` (R54, R61; log 24). -/
def State.withFetchWord (s : State) (nbits w : Nat) : State :=
  placeFetchWord (BitVec.ofNat 16 (w % 2 ^ nbits)) s

end Sys2Proof.Machine
end

