-- ==== Sys2Proof/Machine/HostInterface.lean ====
section
/-! DEFINITION. What the host may do to the engine (`spec/70_reset_and_hazards.md` R172 to R178, `spec/60_exceptions.md` R159 to R164,
`spec/10_state.md` R34). -/

namespace Sys2Proof.Machine

/-- A monochrome bitmap: rows from row 0, pixels from column 0, `true` is black (R160, R162). -/
abbrev Bitmap := List (List Bool)

/-- What the host may send to a constructed engine (R178), and the read of `LEN` that R29 calls for: R34, R178 and item 8 of R4 do not list
it, so that it is a request of its own beside the other reads is DESIGN CHOICE (log 32). -/
inductive Request where
  | load (words : List Word)
  | step
  | run (n : Nat)
  | readA
  | readD
  | readPC
  | readCell (i : Nat)
  | readLen
  | sample
  deriving DecidableEq, Repr

/-- What the host gets back (R178). -/
inductive Reply where
  /-- The action was carried out. -/
  | ok
  /-- The fault a step or a run reports (R174, R176). -/
  | fault (r : Fault)
  /-- A step refused by the model for want of a meaning: no instruction is (every arm of `exec` has a meaning). -/
  | stepRefused (r : Refusal)
  /-- `LoadError(ProgramTooLarge, k)` (R149, R172). -/
  | programTooLarge (k : Nat)
  /-- A load after a load or a step (R173). -/
  | loadRefused
  /-- The value of a register or cell (R34). -/
  | value (w : Word)
  /-- The program length `LEN`, a count of 0 to 32768 (R29, log 32). -/
  | length (n : Nat)
  /-- A read of a cell at or beyond `DATA_WORDS` (R34, D29). -/
  | readRefused
  /-- The bitmap (R160). -/
  | bitmap (b : Bitmap)
  /-- A sample of a window that does not lie in the data store, which R161 excludes (log 2). -/
  | sampleRefused
  deriving DecidableEq, Repr

/-- `load(words)` (R172, R173): refused after a load or a step, an error where the program is too large, nothing changed in either case. -/
def hostLoad (words : List Word) (s : State) : State × Reply :=
  if !s.loadOpen || s.fault.isSome then (s, .loadRefused)
  else if Config.progWords < words.length then (s, .programTooLarge words.length)
  else (closeLoad { s with prog := Memory.writeFrom s.prog 0 words, len := words.length }, .ok)

/-- `step()` as the host sees it (R174, R175): the state it leaves and what it returns. On a fault the state is as before the step with
`FAULT` latched (R143). -/
def hostStep (s : State) : State × Reply :=
  match step s with
  | .next t => (t, .ok)
  | .fault r => (latchFault r s, .fault r)
  | .refused q => (s, .stepRefused q)

/-- `run(n)` (R176): up to `n` steps, stopping at the first fault, which it returns. -/
def hostRun : Nat → State → State × Reply
  | 0, s => (s, .ok)
  | n + 1, s =>
    match hostStep s with
    | (t, .ok) => hostRun n t
    | stopped => stopped

/-- The host's read of a data cell (R34, D29). -/
def hostReadCell (i : Nat) (s : State) : Reply :=
  if i < s.dataWords then .value (Memory.read s.data i) else .readRefused

/-- One pixel (R162): bit `col mod 16` of the word at `SCREEN_BASE + 32*row + col div 16`, black where it is 1. -/
def pixel (screenBase : Nat) (m : Memory) (row col : Nat) : Bool :=
  (Memory.read m (screenBase + Config.screenRowWords * row + col / Config.pixelsPerWord)).getLsbD (col % Config.pixelsPerWord)

/-- The bitmap of the window (R160, R162). -/
def bitmapOf (screenBase : Nat) (m : Memory) : Bitmap :=
  (List.range Config.screenHeight).map fun row => (List.range Config.screenWidth).map fun col => pixel screenBase m row col

/-- `sample()` (R160), for an engine whose window starts at `SCREEN_BASE` (R161). -/
def sample (screenBase : Nat) (s : State) : Reply :=
  if screenBase + Config.screenWords ≤ s.dataWords then .bitmap (bitmapOf screenBase s.data) else .sampleRefused

/-- One interaction of the host with the engine (R178; R29 for `LEN`): the state it leaves and the reply. -/
def serve (screenBase : Nat) (q : Request) (s : State) : State × Reply :=
  match q with
  | .load words => hostLoad words s
  | .step => hostStep s
  | .run n => hostRun n s
  | .readA => (s, .value s.regA)
  | .readD => (s, .value s.regD)
  | .readPC => (s, .value s.pc)
  | .readCell i => (s, hostReadCell i s)
  | .readLen => (s, .length s.len)
  | .sample => (s, sample screenBase s)

end Sys2Proof.Machine
end

