-- ==== Sys2Proof/Safety.lean ====
section
/-! DEFINITION. What counts as a legal state and a safe run. -/

namespace Sys2Proof.Machine

/-- The ranges of the state tuple (`spec/10_state.md` R32) and the canonical form of the two stores: `PC` is a program-store index (R23),
`LEN` at most the program store's capacity (R29), `DATA_WORDS` 1 to 32768 (R7), both stores canonical and inside their capacities. -/
abbrev State.Inv (s : State) : Prop :=
  s.pc.toNat < Config.progWords ∧ s.len ≤ Config.progWords ∧
  1 ≤ s.dataWords ∧ s.dataWords ≤ 32768 ∧
  Memory.wf s.prog = true ∧ Memory.within Config.progWords s.prog = true ∧
  Memory.wf s.data = true ∧ Memory.within s.dataWords s.data = true

/-- A run of `k` steps that raises no fault (`spec/92_eei_decisions.md` D28: a faulted state is never a good end). -/
def SafeRun (k : Nat) (s : State) : Prop := ∃ t, Host.Core.run Sys2Proof.core k s = .next t

/-- Every data-store index a compute instruction uses is inside the capacity: it uses one if it reads `M` (R88) or writes it (R121). -/
abbrev AccessesInRange (a : Source) (d : Dest) (s : State) : Prop :=
  a = .cell ∨ d.m = true → effectiveAddress s < s.dataWords

/-- The resolved operand `Y` (`spec/41_compute.md` R87), where the access is in range. -/
def operandValue (a : Source) (s : State) : Word :=
  match a with
  | .regA => s.regA
  | .cell => Memory.read s.data (effectiveAddress s)

/-- The spec's table of jump predicates on `s = signed(r)` (`spec/43_destinations_and_jumps.md` section 3). -/
def JumpHolds (j : Jump) (signed : Int) : Prop :=
  match j with
  | .never => False
  | .jgt => signed > 0
  | .jeq => signed = 0
  | .jge => signed ≥ 0
  | .jlt => signed < 0
  | .jne => signed ≠ 0
  | .jle => signed ≤ 0
  | .jmp => True

/-- Where a store is and is not changed: the cell at `i` holds `v`, every other cell reads as before. -/
def Memory.StoredAt (i : Nat) (v : Word) (m m' : Memory) : Prop :=
  Memory.read m' i = v ∧ ∀ k, k ≠ i → Memory.read m' k = Memory.read m k

/-- What no instruction changes: the program store, `LEN`, `FAULT`, whether a load is open, and the capacity. -/
structure SameSurroundings (s t : State) : Prop where
  prog : t.prog = s.prog
  len : t.len = s.len
  fault : t.fault = s.fault
  loadOpen : t.loadOpen = s.loadOpen
  dataWords : t.dataWords = s.dataWords

/-- The destination writes of a compute instruction with result `r` (`spec/43_destinations_and_jumps.md` R120 to R126), everything else
in the registers and the data store unchanged. The memory write is at the index the meaning uses, in the state before the step. -/
structure ResultRouted (d : Dest) (r : Word) (s t : State) : Prop where
  regA : t.regA = if d.a then r else s.regA
  regD : t.regD = if d.d then r else s.regD
  stored : d.m = true → Memory.StoredAt (effectiveAddress s) r s.data t.data
  kept : d.m = false → t.data = s.data

/-- The program counter after a compute instruction with result `r` (`spec/43_destinations_and_jumps.md` R130, R131; the wrap is D7 and
the mask D8): the target is the `A` of the state after the writes. -/
def PcUpdated (j : Jump) (r : Word) (s t : State) : Prop :=
  (JumpHolds j r.toInt → t.pc.toNat = t.regA.toNat % 32768) ∧
  (¬ JumpHolds j r.toInt → t.pc.toNat = (s.pc.toNat + 1) % 32768)

/-- The instruction completes: `exec` answers a next state, with result `r` in the enabled destinations, the program counter by the jump
field, and nothing else changed. -/
def Completes (i : Instr) (d : Dest) (j : Jump) (r : Word) (s : State) : Prop :=
  ∃ t, exec i s = .next t ∧ ResultRouted d r s t ∧ PcUpdated j r s t ∧ SameSurroundings s t

/-- `trunc16(n)` (`spec/00_scope.md` R9). -/
def trunc16 (n : Int) : Word := BitVec.ofInt 16 n

end Sys2Proof.Machine
end

