-- ==== Sys2Proof/Certificates/Slice0/Obligations.lean ====
section
/-! DEFINITION. The statements for the provers. A docstring names the rule of `spec/` a statement formalises; where a clause rests on
general knowledge or on a decision the spec marks as its own choice, or on a choice of the model, it says so and names the log entry. -/

open Sys2Proof Sys2Proof.Machine

/-! ### Encoding and decoding -/

/-- Words the spec writes out (`spec/95_test_vectors.md` W2, sections 2, 4 and 6), one at least for each family. The code patterns are general
knowledge by the spec's mark (logs 6, 7, 8); words with bits 14 and 13 other than `11` are D4 (log 9); that `0xE880` is rejected and that
`0xFFFF` is legal with `a = 1` are D5 and D6 (logs 10, 11). -/
def Obligations.SpecWordsDecode : Prop :=
  decode 0x0005#16 = .instruction (.atV 5#16) ∧
  decode 0x7FFF#16 = .instruction (.atV 0x7FFF#16) ∧
  decode 0xEA87#16 = .instruction (.zero ⟨false, false, false⟩ .jmp) ∧
  decode 0xEC10#16 = .instruction (.passA ⟨false, true, false⟩ .never) ∧
  decode 0xE321#16 = .instruction (.passD ⟨true, false, false⟩ .jgt) ∧
  decode 0xFC50#16 = .instruction (.notM ⟨false, true, false⟩ .never) ∧
  decode 0xECD0#16 = .instruction (.negA ⟨false, true, false⟩ .never) ∧
  decode 0xFCA8#16 = .instruction (.decM ⟨true, false, true⟩ .never) ∧
  decode 0xE7F8#16 = .instruction (.incD ⟨true, true, true⟩ .never) ∧
  decode 0xF1D0#16 = .instruction (.rsubM ⟨false, true, false⟩ .never) ∧
  decode 0xF550#16 = .instruction (.orM ⟨false, true, false⟩ .never) ∧
  decode 0xFFFF#16 = .instruction (.oneReadM ⟨true, true, true⟩ .jmp) ∧
  decode 0x8C10#16 = .instruction (.passA ⟨false, true, false⟩ .never) ∧
  decode 0x8000#16 = .instruction (.andA ⟨false, false, false⟩ .never) ∧
  decode 0xE880#16 = .undecodableInstruction .regA 0b100010#6

/-- Decoding the word of a well-formed instruction gives the instruction back, with every operand at every value
(`spec/30_encoding.md` section 7). -/
def Obligations.DecodeOfEncodeIsTheInstruction : Prop :=
  ∀ i : Instr, i.WellFormed → decode (encode i) = .instruction i

/-- The other direction: an instruction a word decodes to is well-formed, and its word is the one decoded, with `11` in bits 14 and 13 of a
compute word (`spec/30_encoding.md` sections 2 and 7; D4, log 9). -/
def Obligations.EncodeOfDecodeIsTheCanonicalWord : Prop :=
  ∀ (w : Word) (i : Instr), decode w = .instruction i →
    i.WellFormed ∧ encode i = if w.msb then w ||| 0x6000#16 else w

/-- R65: the literal of an address word is the word itself, unsigned, and it is what `A` receives. -/
def Obligations.AddressLiteralIsTheUnsignedWord : Prop :=
  ∀ w : Word, w.msb = false →
    ∃ v : Word, decode w = .instruction (.atV v) ∧ v = w ∧ v.toNat < 32768 ∧ v.toInt = v.toNat ∧
      ∀ s : State, ∃ t : State, exec (.atV v) s = .next t ∧ t.regA = w ∧
        ∀ k < 16, t.regA.getLsbD k = (decide (k < 15) && w.getLsbD k)

/-- Two compute words that agree on bits 12 to 0 decode alike (`spec/30_encoding.md` section 2; D4, the spec's own choice, log 9). -/
def Obligations.ComputeWordsIgnoreBits14And13 : Prop :=
  ∀ w w' : Word, w.msb = true → w'.msb = true → (∀ k < 13, w.getLsbD k = w'.getLsbD k) → decode w = decode w'

/-- The 46 illegal compute codes, in the order `spec/30_encoding.md` section 5 lists them. -/
def illegalComputeCodes : List (BitVec 6) :=
  [0b000001, 0b000011, 0b000100, 0b000101, 0b000110, 0b001000, 0b001001, 0b001010, 0b001011, 0b010000, 0b010001, 0b010010] ++
  [0b010100, 0b010110, 0b010111, 0b011000, 0b011001, 0b011010, 0b011011, 0b011100, 0b011101, 0b011110, 0b100000, 0b100001] ++
  [0b100010, 0b100011, 0b100100, 0b100101, 0b100110, 0b100111, 0b101000, 0b101001, 0b101011, 0b101100, 0b101101, 0b101110] ++
  [0b101111, 0b110100, 0b110101, 0b110110, 0b111000, 0b111001, 0b111011, 0b111100, 0b111101, 0b111110]

/-- A word is rejected exactly where it is a compute word whose code is one of the 46, and the rejection keeps the code and the operand
source (general knowledge G1 and decision D5 of the spec, logs 6 and 10; that legality does not depend on `a` is D6, log 11). -/
def Obligations.RejectedWordsAreThoseWithAnIllegalCode : Prop :=
  illegalComputeCodes.length = 46 ∧
  ∀ (w : Word) (a : Source) (c : BitVec 6),
    decode w = .undecodableInstruction a c ↔
      w.msb = true ∧ c ∈ illegalComputeCodes ∧ c = w.extractLsb' 6 6 ∧ a = if w.getLsbD 12 then .cell else .regA

/-! ### The step -/

/-- A step at an instruction's word is `exec` of the instruction, in the state where a load is no longer accepted (the model's field of log 4,
over D21, log 21)
(`spec/70_reset_and_hazards.md` section 2). -/
def Obligations.StepRunsTheDecodedInstruction : Prop :=
  ∀ (s : State) (i : Instr), s.fault = none → s.pc.toNat < 32768 →
    decode (Memory.read s.prog s.pc.toNat) = .instruction i →
    step s = exec i { s with loadOpen := false }

/-- A word placed where the step fetches is the one the next step decodes and runs, and placing it changes nothing but that cell and a
latched fault (the model's `withFetchWord`, log 24). That the step runs it with loads closed is the model's field `loadOpen` (log 4), over the
spec's own choice D21 (log 21). -/
def Obligations.PlacedWordIsTheNextInstruction : Prop :=
  ∀ (s : State) (w : Word) (i : Instr), s.Inv → decode w = .instruction i →
    step (s.withFetchWord 16 w.toNat) = exec i { s.withFetchWord 16 w.toNat with loadOpen := false } ∧
    Memory.StoredAt s.pc.toNat w s.prog (s.withFetchWord 16 w.toNat).prog ∧
    s.withFetchWord 16 w.toNat = { s with prog := (s.withFetchWord 16 w.toNat).prog, fault := none }

/-- R84 and R94: the two worked steps of the source, as steps. -/
def Obligations.WorkedExamplesOfTheSource : Prop :=
  (∀ s : State, s.fault = none → s.pc = 0#16 → Memory.read s.prog 0 = 0x0005#16 →
    ∃ t, step s = .next t ∧ t.regA = 5#16 ∧ t.regD = s.regD ∧ t.pc = 1#16) ∧
  (decode 0xEC10#16 = .instruction (.passA ⟨false, true, false⟩ .never) ∧
   ∀ s : State, s.fault = none → s.regA = 5#16 → s.regD = 0#16 → s.pc = 1#16 → Memory.read s.prog 1 = 0xEC10#16 →
    ∃ t, step s = .next t ∧ t.regA = 5#16 ∧ t.regD = 5#16 ∧ t.pc = 2#16)

/-- An illegal compute code stops the step: with `a = 1` and the cell out of range the operand read is reported, else the undecodable
instruction with its word and code (`spec/41_compute.md` R88, R89; the order is D11, the record D22: logs 16, 17). That the cell is read
before the code is checked at all is D6 (log 11), and that an index equal to the capacity is out of range is D25 (log 14). -/
def Obligations.IllegalCodeStopsTheStep : Prop :=
  ∀ (s : State) (a : Source) (c : BitVec 6), s.fault = none → s.pc.toNat < 32768 →
    decode (Memory.read s.prog s.pc.toNat) = .undecodableInstruction a c →
    (a = .cell ∧ s.dataWords ≤ effectiveAddress s →
      step s = .fault (.outOfRangeOperandRead s.pc (Memory.read s.prog s.pc.toNat) (effectiveAddress s))) ∧
    (¬ (a = .cell ∧ s.dataWords ≤ effectiveAddress s) →
      step s = .fault (.undecodableInstruction s.pc (Memory.read s.prog s.pc.toNat) c))

/-- Where a legal compute instruction stops, and with which record: the operand read before the memory write (`spec/60_exceptions.md`
R147, R152; D6, D11, D22, D25: logs 11, 14, 16, 17). -/
def Obligations.OutOfRangeAccessStopsACompute : Prop :=
  ∀ (op : AluOp) (d : Dest) (j : Jump) (s : State), s.dataWords ≤ effectiveAddress s →
    exec (Instr.compute op .cell d j) s =
      .fault (.outOfRangeOperandRead s.pc (Memory.read s.prog s.pc.toNat) (effectiveAddress s)) ∧
    (d.m = true → exec (Instr.compute op .regA d j) s =
      .fault (.outOfRangeDataWrite s.pc (Memory.read s.prog s.pc.toNat) (effectiveAddress s))) ∧
    (d.m = false → ∃ t, exec (Instr.compute op .regA d j) s = .next t ∧ t.data = s.data)

/-- R93: a compute word answers a next state or one of the three faults, each only for its own cause, and which of these happens depends
on nothing but the word, the index and the capacity: not on `D`, the operand, bit 15 of `A`, the target or `LEN`. -/
def Obligations.ComputeRaisesOnlyItsThreeFaults : Prop :=
  (∀ (w : Word) (s : State), w.msb = true →
    (∃ t, executeWord w s = .next t) ∨
    (∃ p u ea, executeWord w s = .fault (.outOfRangeOperandRead p u ea) ∧ w.getLsbD 12 = true ∧ s.dataWords ≤ effectiveAddress s) ∨
    (∃ p u c, executeWord w s = .fault (.undecodableInstruction p u c) ∧ AluOp.ofCode (bitField w 6 6) = none) ∨
    (∃ p u ea, executeWord w s = .fault (.outOfRangeDataWrite p u ea) ∧ (Dest.ofBits (bitField w 3 3)).m = true ∧
      s.dataWords ≤ effectiveAddress s)) ∧
  (∀ (w : Word) (s s' : State), w.msb = true → s.regA.toNat % 32768 = s'.regA.toNat % 32768 → s.dataWords = s'.dataWords →
    (∃ t, executeWord w s = .next t) → ∃ t, executeWord w s' = .next t)

/-- A compute instruction completes exactly where the data accesses it makes are in range: arithmetic stops nothing, and only an access out
of range does (`spec/60_exceptions.md` section 2). That an `a = 1` form whose operation ignores the cell stops too is D6 (log 11); that an
index equal to the capacity is out of range is D25 (log 14). -/
def Obligations.ArithmeticRaisesNothing : Prop :=
  ∀ (op : AluOp) (a : Source) (d : Dest) (j : Jump) (s : State),
    (∃ t, exec (Instr.compute op a d j) s = .next t) ↔ AccessesInRange a d s

/-- No instruction and no step is refused: every word runs or raises a fault the spec names (`spec/60_exceptions.md` sections 1 and 6). -/
def Obligations.NothingIsRefused : Prop :=
  (∀ (i : Instr) (s : State) (q : Refusal), exec i s ≠ .refused q) ∧ (∀ (s : State) (q : Refusal), step s ≠ .refused q)

/-- With this hardware's capacity every word that decodes runs, and the only fault a step raises is the undecodable instruction
(`spec/60_exceptions.md` R147, R148). -/
def Obligations.FullCapacityRunsEveryLegalWord : Prop :=
  ∀ s : State, s.Inv → s.fault = none → s.dataWords = 32768 →
    (∀ i, decode (Memory.read s.prog s.pc.toNat) = .instruction i → ∃ t, step s = .next t) ∧
    (∀ r, step s = .fault r → ∃ c, r = .undecodableInstruction s.pc (Memory.read s.prog s.pc.toNat) c)

/-! ### Faults -/

/-- A latched fault stops the engine: steps, runs and loads change nothing, steps and runs return it (`spec/60_exceptions.md` R144, the
spec's own choice D10, log 15). That a load is refused while a fault is latched is the model's choice (log 4), over a load's being accepted
only before the first step (`spec/70_reset_and_hazards.md` R173, the spec's own choice D21, log 21). -/
def Obligations.LatchedFaultStopsTheEngine : Prop :=
  ∀ (s : State) (r : Fault), s.fault = some r →
    step s = .fault r ∧ hostStep s = (s, .fault r) ∧ (∀ n, hostRun (n + 1) s = (s, .fault r)) ∧
    (∀ words, hostLoad words s = (s, .loadRefused))

/-- A faulting step leaves every piece of state but the latch as it was, and its record names the instruction's own `PC` and word
(`spec/60_exceptions.md` R142, R143; D10 and D22, logs 15 and 17; the outcome's form is log 3). That a fetch out of range is one at or
beyond the capacity is D25 (log 14), that it is reported first is D11 (log 16), and a `PC` beyond its range is held by the model only (log 29). -/
def Obligations.FaultingStepIsPrecise : Prop :=
  ∀ (s : State) (r : Fault), s.fault = none → step s = .fault r →
    (hostStep s).2 = .fault r ∧ (hostStep s).1.fault = some r ∧
    (hostStep s).1 = { s with fault := (hostStep s).1.fault } ∧
    r.pc = s.pc ∧ (s.pc.toNat < 32768 → r.word = some (Memory.read s.prog s.pc.toNat)) ∧
    (r.code = 1 ∨ r.code = 2 ∨ r.code = 3 ∨ r.code = 4) ∧
    (r.code = 2 ↔ 32768 ≤ s.pc.toNat) ∧ (r.code = 3 ∨ r.code = 4 → r.detail = effectiveAddress s)

/-! ### The address instruction -/

/-- R82: an address instruction writes nothing but `A` and `PC`, reads and writes no data cell, and does not read the old `A`. -/
def Obligations.AddressLoadWritesOnlyAAndPc : Prop :=
  ∀ (v : Word) (s : State), ∃ t, exec (.atV v) s = .next t ∧
    t = { s with regA := t.regA, pc := t.pc } ∧
    (∀ m : Memory, exec (.atV v) { s with data := m } = .next { t with data := m }) ∧
    (∀ a : Word, exec (.atV v) { s with regA := a } = .next t)

/-- `@v` completes in every state: `A` is the 15-bit literal, `PC` advances by one (`spec/40_address_load.md` R80, R81; the wrap is D7,
log 12; a literal with bit 15 set has no encoding and is log 25). -/
def Obligations.AddressLoadCompletes : Prop :=
  ∀ (v : Word) (s : State), ∃ t, exec (.atV v) s = .next t ∧
    t.regA.toNat = v.toNat % 32768 ∧ ((Instr.atV v).WellFormed → t.regA = v) ∧
    t.pc.toNat = (s.pc.toNat + 1) % 32768 ∧
    t.regD = s.regD ∧ t.data = s.data ∧ SameSurroundings s t

/-! ### The compute instructions: results, completion and frame

`Completes i d j r s` says that `exec i s` answers a next state with `r` in the enabled destinations and nowhere else, `PC` by the jump
field, and every other piece of state unchanged. The wrap of `PC` is D7 (log 12), the mask of the target D8 (log 13), and that an `[a=1]`
form needs its cell in range is D6 (log 11). -/

/-- The constants (`spec/42_alu_operations.md` section 2). -/
def Obligations.ConstantInstructionsComplete : Prop :=
  ∀ (d : Dest) (j : Jump) (s : State), s.Inv →
    (AccessesInRange .regA d s →
      Completes (.zero d j) d j 0x0000#16 s ∧ Completes (.one d j) d j 0x0001#16 s ∧ Completes (.negOne d j) d j 0xFFFF#16 s) ∧
    (AccessesInRange .cell d s →
      Completes (.zeroReadM d j) d j 0x0000#16 s ∧ Completes (.oneReadM d j) d j 0x0001#16 s ∧
      Completes (.negOneReadM d j) d j 0xFFFF#16 s)

/-- The moves (`spec/42_alu_operations.md` section 3): all 16 bits of `D`, `A` or the cell. -/
def Obligations.MoveInstructionsComplete : Prop :=
  ∀ (d : Dest) (j : Jump) (s : State), s.Inv →
    (AccessesInRange .regA d s → Completes (.passD d j) d j s.regD s ∧ Completes (.passA d j) d j s.regA s) ∧
    (AccessesInRange .cell d s →
      Completes (.passDReadM d j) d j s.regD s ∧
      Completes (.passM d j) d j (Memory.read s.data (s.regA.toNat % 32768)) s)

/-- Bitwise complement (`spec/42_alu_operations.md` section 4): each of the 16 bits inverted. -/
def Obligations.ComplementInstructionsComplete : Prop :=
  ∀ (d : Dest) (j : Jump) (s : State), s.Inv →
    (AccessesInRange .regA d s →
      (∃ r : Word, (∀ k < 16, r.getLsbD k = !s.regD.getLsbD k) ∧ Completes (.notD d j) d j r s) ∧
      (∃ r : Word, (∀ k < 16, r.getLsbD k = !s.regA.getLsbD k) ∧ Completes (.notA d j) d j r s)) ∧
    (AccessesInRange .cell d s →
      (∃ r : Word, (∀ k < 16, r.getLsbD k = !s.regD.getLsbD k) ∧ Completes (.notDReadM d j) d j r s) ∧
      (∃ r : Word, (∀ k < 16, r.getLsbD k = !(Memory.read s.data (s.regA.toNat % 32768)).getLsbD k) ∧
        Completes (.notM d j) d j r s))

/-- Negation (`spec/42_alu_operations.md` section 5): `trunc16(0 - unsigned)`. -/
def Obligations.NegationInstructionsComplete : Prop :=
  ∀ (d : Dest) (j : Jump) (s : State), s.Inv →
    (AccessesInRange .regA d s →
      Completes (.negD d j) d j (trunc16 (0 - s.regD.toNat)) s ∧ Completes (.negA d j) d j (trunc16 (0 - s.regA.toNat)) s) ∧
    (AccessesInRange .cell d s →
      Completes (.negDReadM d j) d j (trunc16 (0 - s.regD.toNat)) s ∧
      Completes (.negM d j) d j (trunc16 (0 - (Memory.read s.data (s.regA.toNat % 32768)).toNat)) s)

/-- Increment and decrement (`spec/42_alu_operations.md` section 6): `trunc16(unsigned + 1)` and `trunc16(unsigned - 1)`. -/
def Obligations.IncrementAndDecrementComplete : Prop :=
  ∀ (d : Dest) (j : Jump) (s : State), s.Inv →
    (AccessesInRange .regA d s →
      Completes (.incD d j) d j (trunc16 (s.regD.toNat + 1)) s ∧ Completes (.incA d j) d j (trunc16 (s.regA.toNat + 1)) s ∧
      Completes (.decD d j) d j (trunc16 (s.regD.toNat - 1)) s ∧ Completes (.decA d j) d j (trunc16 (s.regA.toNat - 1)) s) ∧
    (AccessesInRange .cell d s →
      Completes (.incDReadM d j) d j (trunc16 (s.regD.toNat + 1)) s ∧
      Completes (.incM d j) d j (trunc16 ((Memory.read s.data (s.regA.toNat % 32768)).toNat + 1)) s ∧
      Completes (.decDReadM d j) d j (trunc16 (s.regD.toNat - 1)) s ∧
      Completes (.decM d j) d j (trunc16 ((Memory.read s.data (s.regA.toNat % 32768)).toNat - 1)) s)

/-- Addition and subtraction (`spec/42_alu_operations.md` section 7): exact integer arithmetic reduced by `trunc16`. -/
def Obligations.AdditionAndSubtractionComplete : Prop :=
  ∀ (d : Dest) (j : Jump) (s : State), s.Inv →
    (AccessesInRange .regA d s →
      Completes (.addA d j) d j (trunc16 (s.regD.toNat + s.regA.toNat)) s ∧
      Completes (.subA d j) d j (trunc16 (s.regD.toNat - s.regA.toNat)) s ∧
      Completes (.rsubA d j) d j (trunc16 (s.regA.toNat - s.regD.toNat)) s) ∧
    (AccessesInRange .cell d s →
      Completes (.addM d j) d j (trunc16 (s.regD.toNat + (Memory.read s.data (s.regA.toNat % 32768)).toNat)) s ∧
      Completes (.subM d j) d j (trunc16 (s.regD.toNat - (Memory.read s.data (s.regA.toNat % 32768)).toNat)) s ∧
      Completes (.rsubM d j) d j (trunc16 ((Memory.read s.data (s.regA.toNat % 32768)).toNat - s.regD.toNat)) s)

/-- Bitwise and and or (`spec/42_alu_operations.md` section 8), bit by bit. -/
def Obligations.LogicInstructionsComplete : Prop :=
  ∀ (d : Dest) (j : Jump) (s : State), s.Inv →
    (AccessesInRange .regA d s →
      (∃ r : Word, (∀ k < 16, r.getLsbD k = (s.regD.getLsbD k && s.regA.getLsbD k)) ∧ Completes (.andA d j) d j r s) ∧
      (∃ r : Word, (∀ k < 16, r.getLsbD k = (s.regD.getLsbD k || s.regA.getLsbD k)) ∧ Completes (.orA d j) d j r s)) ∧
    (AccessesInRange .cell d s →
      (∃ r : Word, (∀ k < 16, r.getLsbD k = (s.regD.getLsbD k && (Memory.read s.data (s.regA.toNat % 32768)).getLsbD k)) ∧
        Completes (.andM d j) d j r s) ∧
      (∃ r : Word, (∀ k < 16, r.getLsbD k = (s.regD.getLsbD k || (Memory.read s.data (s.regA.toNat % 32768)).getLsbD k)) ∧
        Completes (.orM d j) d j r s))

/-! ### Operands, destinations and jumps -/

/-- R87: the first ALU operand is `D`; the second is the whole of `A`, or the cell at `mask15(A)`. Each operation is one function of these
two, whichever operand source; the moves are its two projections, so both operands are seen as they are. -/
def Obligations.OperandsAreDAndAOrTheCell : Prop :=
  ∀ op : AluOp, ∃ f : Word → Word → Word,
    (op = .x → ∀ x y, f x y = x) ∧ (op = .y → ∀ x y, f x y = y) ∧
    ∀ (d : Dest) (j : Jump) (s t : State), d.d = true →
      (exec (Instr.compute op .regA d j) s = .next t → t.regD = f s.regD s.regA) ∧
      (exec (Instr.compute op .cell d j) s = .next t → t.regD = f s.regD (Memory.read s.data (s.regA.toNat % 32768)))

/-- R90, R120, R129: an operation, an operand source and a state give one result, whatever the destinations; every enabled destination
receives it, every other destination keeps its value, and the jump predicate tests it as a signed number: where it holds `PC` is that of the
unconditional jump, else that of no jump. -/
def Obligations.OneResultForDestinationsAndJump : Prop :=
  ∀ (op : AluOp) (a : Source) (s : State), s.Inv → ∃ r : Word, ∀ (d : Dest) (j : Jump) (t : State),
    exec (Instr.compute op a d j) s = .next t →
      (d.a = true → t.regA = r) ∧ (d.a = false → t.regA = s.regA) ∧
      (d.d = true → t.regD = r) ∧ (d.d = false → t.regD = s.regD) ∧
      (d.m = true → Memory.StoredAt (mask15 s.regA) r s.data t.data) ∧ (d.m = false → t.data = s.data) ∧
      ∃ taken notTaken, exec (Instr.compute op a d .jmp) s = .next taken ∧ exec (Instr.compute op a d .never) s = .next notTaken ∧
        (JumpHolds j r.toInt → t.pc = taken.pc) ∧ (¬ JumpHolds j r.toInt → t.pc = notTaken.pc)

/-- R124: with both the memory and the address destination enabled the write lands at the cell the old `A` addresses, and no other cell, the
one the new `A` addresses among them, changes. -/
def Obligations.MemoryWriteLandsAtTheOldA : Prop :=
  ∀ (op : AluOp) (a : Source) (dEnable : Bool) (j : Jump) (s t : State), s.Inv →
    exec (Instr.compute op a ⟨true, dEnable, true⟩ j) s = .next t →
      Memory.StoredAt (mask15 s.regA) t.regA s.data t.data

/-- The jump target is the `A` the instruction leaves, whatever the operation, operand source, destinations and jump: where the predicate
holds of the result `r`, `PC` is that `A` modulo 32768, which is `r` with the `A` destination and the old `A` without; a memory destination
stores `r` where the old `A` points all the same. The last two clauses are two such instructions: `A=D;JMP` jumps to `D`, and `AM=M-1;JNE`
to the decremented cell (`spec/43_destinations_and_jumps.md` R131, `spec/70_reset_and_hazards.md` R181, C9; the mask is D8, log 13; that
every `a = 1` form needs its cell in range is D6, log 11). -/
def Obligations.JumpTargetIsTheNewA : Prop :=
  ∀ s : State, s.Inv →
    (∀ (op : AluOp) (a : Source) (d : Dest) (j : Jump), AccessesInRange a d s → JumpHolds j (alu op s.regD (operandValue a s)).toInt →
      ∃ t, exec (Instr.compute op a d j) s = .next t ∧ t.pc.toNat = t.regA.toNat % 32768 ∧
        t.regA = (if d.a then alu op s.regD (operandValue a s) else s.regA) ∧
        (d.m = true → Memory.StoredAt (effectiveAddress s) (alu op s.regD (operandValue a s)) s.data t.data)) ∧
    (∃ t, exec (.passD ⟨true, false, false⟩ .jmp) s = .next t ∧ t.regA = s.regD ∧ t.pc.toNat = s.regD.toNat % 32768) ∧
    (effectiveAddress s < s.dataWords → Memory.read s.data (effectiveAddress s) ≠ 1#16 →
      ∃ t, exec (.decM ⟨true, false, true⟩ .jne) s = .next t ∧
        t.regA = Memory.read s.data (effectiveAddress s) - 1#16 ∧ t.pc.toNat = t.regA.toNat % 32768 ∧
        Memory.StoredAt (effectiveAddress s) t.regA s.data t.data)

/-- The bits of the jump code select `r < 0`, `r = 0` and `r > 0`, and the jump is taken when a selected condition holds
(`spec/30_encoding.md` R69; the values are D3, log 8). -/
def Obligations.JumpCodeBitsSelectTheSigns : Prop :=
  ∀ (c : BitVec 3) (r : Word),
    jumpTaken (Jump.ofCode c) r = true ↔
      (c.getLsbD 2 = true ∧ r.toInt < 0) ∨ (c.getLsbD 1 = true ∧ r.toInt = 0) ∨ (c.getLsbD 0 = true ∧ r.toInt > 0)

/-! ### Memory -/

/-- An index drops bit 15 of the Word and nothing else (`spec/00_scope.md` R10, `spec/20_memory.md` section 4). -/
def Obligations.IndexDropsOnlyBit15 : Prop :=
  ∀ w : Word, mask15 w = w.toNat % 32768 ∧ mask15 w < 32768 ∧ mask15 (w ^^^ 0x8000#16) = mask15 w ∧
    (w.msb = false → mask15 w = w.toNat)

/-- R163: a write into the screen window raises nothing, puts the result of its own operation on `D` and its operand into its cell and the
enabled registers, changes nothing else but `PC`, and a later compute instruction reads that result back unchanged. -/
def Obligations.WindowWritesAreOrdinary : Prop :=
  ∀ (screenBase : Nat) (op : AluOp) (a : Source) (d : Dest) (j : Jump) (s : State), s.Inv →
    screenBase + 8192 ≤ s.dataWords → screenBase ≤ effectiveAddress s → effectiveAddress s < screenBase + 8192 → d.m = true →
    ∃ r t u, r = alu op s.regD (operandValue a s) ∧ exec (Instr.compute op a d j) s = .next t ∧
      Memory.StoredAt (effectiveAddress s) r s.data t.data ∧ SameSurroundings s t ∧
      t.regA = (if d.a then r else s.regA) ∧ t.regD = (if d.d then r else s.regD) ∧
      exec (.passM ⟨false, true, false⟩ .never) { t with regA := s.regA } = .next u ∧ u.regD = r

/-- The canonical form is one form: two stores that read alike at every index are equal (the model's choice of representation, log 5;
`spec/20_memory.md` section 6). -/
def Obligations.StoresThatReadAlikeAreEqual : Prop :=
  ∀ m m' : Memory, Memory.wf m = true → Memory.wf m' = true → (∀ i, Memory.read m i = Memory.read m' i) → m = m'

/-! ### The whole machine -/

/-- A constructed engine, this hardware's among them, meets the invariant (`spec/10_state.md` sections 5 and 6; the capacity as a
field is log 1, the canonical form log 5). -/
def Obligations.ConstructedEngineMeetsTheInvariant : Prop :=
  State.reset.Inv ∧ ∀ n, 1 ≤ n → n ≤ 32768 → (State.construct n).Inv

/-- Every step keeps the invariant: `PC` stays a program-store index, both stores stay canonical and inside their capacities
(`spec/10_state.md` R32; the range of `PC` is D7, logs 12 and 29; the capacity as a field is log 1, the canonical form log 5). -/
def Obligations.StepKeepsTheInvariant : Prop :=
  ∀ s t : State, s.Inv → step s = .next t → t.Inv

/-- Nothing the host may do breaks the invariant, faults and refused requests included (`spec/70_reset_and_hazards.md` section 2; the
terms of the invariant are logs 1, 5, 12 and 29, the read of `LEN` is log 32). -/
def Obligations.HostRequestsKeepTheInvariant : Prop :=
  ∀ (screenBase : Nat) (q : Request) (s : State), s.Inv → (serve screenBase q s).1.Inv

/-- The program store has 32768 cells; no instruction and no step writes it; of the host's actions only a load does, and after a step none
does any more, since a step closes loads and no request opens them again (`spec/10_state.md` R27; that a load is accepted only before the
first step is R173 with D21, log 21). That the model remembers this in `loadOpen`, and refuses a load while a fault is latched, is its own
choice (log 4). That index 32768 cannot be read is D25 (log 14). -/
def Obligations.OnlyALoadBeforeExecutionWritesTheProgram : Prop :=
  (∀ (s : State) (i : Nat), (∃ w, progRead s i = .ok w) ↔ i < 32768) ∧
  (∀ (i : Instr) (s t : State), exec i s = .next t → t.prog = s.prog) ∧
  (∀ (screenBase : Nat) (q : Request) (s : State), (serve screenBase q s).1.prog ≠ s.prog →
    ∃ words, q = .load words ∧ s.loadOpen = true ∧ s.fault = none) ∧
  (∀ s t : State, step s = .next t → t.prog = s.prog ∧ t.loadOpen = false) ∧
  (∀ (screenBase : Nat) (q : Request) (s : State), s.loadOpen = false → (serve screenBase q s).1.loadOpen = false)

/-- A load records the length, at most 32768, the host observes it, and no step reads it: with another length recorded the same thing
happens (`spec/10_state.md` R29). That the host observes it by a read of its own, which changes nothing, is the model's choice (log 32). -/
def Obligations.NoStepReadsTheLength : Prop :=
  (∀ (words : List Word) (s t : State), hostLoad words s = (t, .ok) → t.len = words.length ∧ t.len ≤ 32768) ∧
  (∀ (screenBase : Nat) (s : State), serve screenBase .readLen s = (s, .length s.len)) ∧
  (∀ (s : State) (n i : Nat), progRead { s with len := n } i = progRead s i) ∧
  (∀ (s t : State) (n : Nat), step s = .next t → step { s with len := n } = .next { t with len := n }) ∧
  (∀ (s : State) (r : Fault) (n : Nat), step s = .fault r → step { s with len := n } = .fault r)

/-- Over all words: `D` changes only by a compute word with the `D` destination, `A` only by an address word or a compute word with the `A`
destination, its bit 15 is set only by such a compute word, and a data cell changes only by a compute word with the memory destination at the
index the old `A` gives (`spec/10_state.md` R21, R22, `spec/20_memory.md` R47). -/
def Obligations.StateChangesOnlyAsTheWordEnables : Prop :=
  ∀ s t : State, s.Inv → step s = .next t →
    (t.regD ≠ s.regD →
      ∃ op a d j, decode (Memory.read s.prog s.pc.toNat) = .instruction (Instr.compute op a d j) ∧ d.d = true) ∧
    (t.regA ≠ s.regA →
      (∃ v, decode (Memory.read s.prog s.pc.toNat) = .instruction (.atV v)) ∨
      ∃ op a d j, decode (Memory.read s.prog s.pc.toNat) = .instruction (Instr.compute op a d j) ∧ d.a = true) ∧
    (t.regA.msb = true → s.regA.msb = false →
      ∃ op a d j, decode (Memory.read s.prog s.pc.toNat) = .instruction (Instr.compute op a d j) ∧ d.a = true) ∧
    (∀ k, Memory.read t.data k ≠ Memory.read s.data k →
      k = effectiveAddress s ∧
      ∃ op a d j, decode (Memory.read s.prog s.pc.toNat) = .instruction (Instr.compute op a d j) ∧ d.m = true)

/-- Past the loaded program the engine runs `@0`: `A` is 0, `PC` advances, no fault, and nothing else changes but that loads close
(`spec/20_memory.md` R54, `spec/60_exceptions.md` R150, C10; the wrap is D7, log 12; log 31). That loads close is the model's field
`loadOpen` (log 4), over the spec's own choice D21 (log 21). -/
def Obligations.PastTheProgramRunsAddressZero : Prop :=
  ∀ s : State, s.fault = none → s.pc.toNat < 32768 → Memory.within s.len s.prog = true → s.len ≤ s.pc.toNat →
    ∃ t, step s = .next t ∧ t.regA = 0#16 ∧ t.pc.toNat = (s.pc.toNat + 1) % 32768 ∧
      t = { s with regA := t.regA, pc := t.pc, loadOpen := false }

/-! ### Reset and the host -/

/-- What construction leaves (`spec/10_state.md` section 6, `spec/70_reset_and_hazards.md` R170; that it clears the latch and the program store
is D10 and D21, logs 15 and 21; `loadOpen` is the model's, log 4; the capacity as a field is log 1). -/
def Obligations.ConstructionZeroesEverything : Prop :=
  State.reset.dataWords = 32768 ∧ State.reset = State.construct 32768 ∧
  ∀ n, (State.construct n).regA = 0#16 ∧ (State.construct n).regD = 0#16 ∧ (State.construct n).pc = 0#16 ∧
    (∀ i, Memory.read (State.construct n).data i = 0#16) ∧ (∀ i, Memory.read (State.construct n).prog i = 0#16) ∧
    (State.construct n).len = 0 ∧ (State.construct n).fault = none ∧ (State.construct n).loadOpen = true ∧
    (State.construct n).dataWords = n

/-- At entry, with a program loaded or not, every register and data cell is 0, and an engine with nothing loaded executes `@0` words
(here at each of the 32768 program-store indices, so that nothing rests on what follows the last; `spec/70_reset_and_hazards.md` R179). That the
step closes loads is D21 (log 21), held in the model's own field `loadOpen` (log 4). -/
def Obligations.EntryNeedsNothingInitialised : Prop :=
  (∀ n : Nat, ∀ t : State, (t = State.construct n ∨ ∃ words, hostLoad words (State.construct n) = (t, .ok)) →
    t.regA = 0#16 ∧ t.regD = 0#16 ∧ t.pc = 0#16 ∧ ∀ i, Memory.read t.data i = 0#16) ∧
  (∀ n k : Nat, k < 32768 → ∃ t, Host.Core.run Sys2Proof.core k (State.construct n) = .next t ∧ t.pc.toNat = k ∧
    t.regA = 0#16 ∧ t.regD = 0#16 ∧ decode (Memory.read t.prog t.pc.toNat) = .instruction (.atV 0#16) ∧
    step t = exec (.atV 0#16) { t with loadOpen := false })

/-- R171: a loaded program is entered at index 0: its first word is the one the first step executes. -/
def Obligations.ExecutionEntersAtIndexZero : Prop :=
  ∀ (n : Nat) (w : Word) (words : List Word) (t : State), hostLoad (w :: words) (State.construct n) = (t, .ok) →
    t.pc = 0#16 ∧ Memory.read t.prog 0 = w ∧ step t = executeWord w t

/-- A load copies the words to the program store from index 0, records their number and leaves the rest 0; more than 32768 words are an
error that changes nothing (`spec/70_reset_and_hazards.md` R172). That a load which succeeds closes further loads is R173 with D21 (log 21),
held in the model's own field `loadOpen` (log 4). -/
def Obligations.LoadCopiesTheWordsOrChangesNothing : Prop :=
  ∀ (n : Nat) (words : List Word),
    (words.length ≤ 32768 → ∃ t, hostLoad words (State.construct n) = (t, .ok) ∧ t.len = words.length ∧
      (∀ i (h : i < words.length), Memory.read t.prog i = words[i]) ∧ (∀ i, words.length ≤ i → Memory.read t.prog i = 0#16) ∧
      t = { State.construct n with prog := t.prog, len := t.len, loadOpen := false }) ∧
    (32768 < words.length → hostLoad words (State.construct n) = (State.construct n, .programTooLarge words.length))

/-- A load is accepted once, before the first step: after a load, a step or a run of at least one step every load is refused and changes
nothing (`spec/70_reset_and_hazards.md` R173, the spec's own choice D21, log 21). Two of its cases are the model's choice: after a step that
faulted the load is refused because a fault is latched (log 4), and a load that is late and too large is refused as late (log 21). -/
def Obligations.LoadIsAcceptedOnceBeforeTheFirstStep : Prop :=
  ∀ (words : List Word) (s : State),
    (∀ words' t, hostLoad words' s = (t, .ok) → hostLoad words t = (t, .loadRefused)) ∧
    hostLoad words (hostStep s).1 = ((hostStep s).1, .loadRefused) ∧
    (∀ n, hostLoad words (hostRun (n + 1) s).1 = ((hostRun (n + 1) s).1, .loadRefused))

/-- The host's `run(n)` agrees with `n` steps of the machine: it returns `ok` exactly where they all complete, with the state they leave, and
else the first fault, latched in the state the steps before it left (`spec/70_reset_and_hazards.md` R176, R177; D27, log 23; the latch
is D10, log 15, and `hostStep` writes it, log 3). -/
def Obligations.HostRunAgreesWithTheSteps : Prop :=
  ∀ (n : Nat) (s : State),
    ((hostRun n s).2 = .ok ↔ SafeRun n s) ∧
    (∀ t, Host.Core.run Sys2Proof.core n s = .next t → hostRun n s = (t, .ok)) ∧
    (∀ r, Host.Core.run Sys2Proof.core n s = .fault r →
      ∃ k u, k < n ∧ Host.Core.run Sys2Proof.core k s = .next u ∧ step u = .fault r ∧
        hostRun n s = ({ u with fault := some r }, .fault r))

/-- The host reads `A`, `D`, `PC`, `LEN` and any data cell, a cell at or beyond the capacity being refused, and none of its reads changes anything;
no request but a step or a run writes a register or a data cell (`spec/70_reset_and_hazards.md` R178, `spec/10_state.md` section 7; D29,
log 22; R29 and log 32 for `LEN`; `loadOpen`, which a load closes, is log 4). -/
def Obligations.HostReadsButDoesNotWrite : Prop :=
  ∀ (screenBase : Nat) (s : State),
    serve screenBase .readA s = (s, .value s.regA) ∧ serve screenBase .readD s = (s, .value s.regD) ∧
    serve screenBase .readPC s = (s, .value s.pc) ∧ serve screenBase .readLen s = (s, .length s.len) ∧
    (∀ i, i < s.dataWords → serve screenBase (.readCell i) s = (s, .value (Memory.read s.data i))) ∧
    (∀ i, s.dataWords ≤ i → serve screenBase (.readCell i) s = (s, .readRefused)) ∧
    (∀ q, q ≠ .step → (∀ n, q ≠ .run n) →
      (serve screenBase q s).1 = { s with prog := (serve screenBase q s).1.prog, len := (serve screenBase q s).1.len,
                                          loadOpen := (serve screenBase q s).1.loadOpen })

/-- The sampler gives 256 rows of 512 pixels for every window that lies in the data store, changes nothing, and reads no register and no cell
outside the window (`spec/60_exceptions.md` R160, R161; `SCREEN_BASE` is a parameter, log 2). -/
def Obligations.SamplerIsAReadOnlyProjectionOfItsWindow : Prop :=
  ∀ (screenBase : Nat) (s : State),
    (serve screenBase .sample s).1 = s ∧
    (screenBase + 8192 ≤ s.dataWords → ∃ b, sample screenBase s = .bitmap b ∧ b.length = 256 ∧ ∀ row ∈ b, row.length = 512) ∧
    (∀ s' : State, s'.dataWords = s.dataWords →
      (∀ i, screenBase ≤ i → i < screenBase + 8192 → Memory.read s'.data i = Memory.read s.data i) →
      sample screenBase s' = sample screenBase s)

/-- Each bit of the window is one pixel, least significant bit leftmost, 32 words a row, row after row; black where it is 1
(`spec/60_exceptions.md` R162; the layout is D17 and general knowledge, log 20). -/
def Obligations.EachWindowBitIsItsPixel : Prop :=
  ∀ (screenBase : Nat) (s : State) (b : Bitmap), sample screenBase s = .bitmap b →
    ∀ word < 8192, ∀ bit < 16,
      (b[word / 32]?.bind fun row => row[16 * (word % 32) + bit]?) =
        some ((Memory.read s.data (screenBase + word)).getLsbD bit)
end

