-- ==== Sys2Proof/Laws/Decode.lean ====
section
/-! SUPPORT. The fields of an instruction read back from their codes, and where the fields of an encoded word lie. -/

namespace Sys2Proof

@[simp] theorem AluOp.ofCode_code (op : AluOp) : AluOp.ofCode op.code = some op := by cases op <;> rfl

/-- A compute code that names an operation is that operation's code. -/
theorem AluOp.code_of_ofCode {c : BitVec 6} {op : AluOp} (h : AluOp.ofCode c = some op) : op.code = c := by
  simpa using List.find?_some h

@[simp] theorem Source.ofBit_bit (a : Source) : Source.ofBit a.bit = a := by cases a <;> rfl

@[simp] theorem Source.bit_ofBit (b : BitVec 1) : (Source.ofBit b).bit = b := by
  revert b; decide

@[simp] theorem Dest.ofBits_bits (d : Dest) : Dest.ofBits d.bits = d := by
  obtain ⟨a, d, m⟩ := d; cases a <;> cases d <;> cases m <;> rfl

@[simp] theorem Dest.bits_ofBits (b : BitVec 3) : (Dest.ofBits b).bits = b := by
  revert b; decide

@[simp] theorem Jump.ofCode_code (j : Jump) : Jump.ofCode j.code = j := by cases j <;> rfl

/-- Every 3-bit value is a jump code (R69, R128). -/
@[simp] theorem Jump.code_ofCode (c : BitVec 3) : (Jump.ofCode c).code = c := by
  revert c; decide

/-- The encoder's word of a compute instruction is `encodeCompute` of its fields. -/
theorem encode_compute (op : AluOp) (a : Source) (d : Dest) (j : Jump) :
    encode (Instr.compute op a d j) = encodeCompute op a d j := by cases op <;> cases a <;> rfl

/-- Every instruction is `@v` or a compute instruction with some fields. -/
theorem Instr.cases_compute (i : Instr) : (∃ v, i = .atV v) ∨ ∃ op a d j, i = Instr.compute op a d j := by
  cases i with
  | atV v => exact .inl ⟨v, rfl⟩
  | zero d j => exact .inr ⟨.zero, .regA, d, j, rfl⟩
  | zeroReadM d j => exact .inr ⟨.zero, .cell, d, j, rfl⟩
  | one d j => exact .inr ⟨.one, .regA, d, j, rfl⟩
  | oneReadM d j => exact .inr ⟨.one, .cell, d, j, rfl⟩
  | negOne d j => exact .inr ⟨.negOne, .regA, d, j, rfl⟩
  | negOneReadM d j => exact .inr ⟨.negOne, .cell, d, j, rfl⟩
  | passD d j => exact .inr ⟨.x, .regA, d, j, rfl⟩
  | passDReadM d j => exact .inr ⟨.x, .cell, d, j, rfl⟩
  | passA d j => exact .inr ⟨.y, .regA, d, j, rfl⟩
  | passM d j => exact .inr ⟨.y, .cell, d, j, rfl⟩
  | notD d j => exact .inr ⟨.notX, .regA, d, j, rfl⟩
  | notDReadM d j => exact .inr ⟨.notX, .cell, d, j, rfl⟩
  | notA d j => exact .inr ⟨.notY, .regA, d, j, rfl⟩
  | notM d j => exact .inr ⟨.notY, .cell, d, j, rfl⟩
  | negD d j => exact .inr ⟨.negX, .regA, d, j, rfl⟩
  | negDReadM d j => exact .inr ⟨.negX, .cell, d, j, rfl⟩
  | negA d j => exact .inr ⟨.negY, .regA, d, j, rfl⟩
  | negM d j => exact .inr ⟨.negY, .cell, d, j, rfl⟩
  | incD d j => exact .inr ⟨.incX, .regA, d, j, rfl⟩
  | incDReadM d j => exact .inr ⟨.incX, .cell, d, j, rfl⟩
  | incA d j => exact .inr ⟨.incY, .regA, d, j, rfl⟩
  | incM d j => exact .inr ⟨.incY, .cell, d, j, rfl⟩
  | decD d j => exact .inr ⟨.decX, .regA, d, j, rfl⟩
  | decDReadM d j => exact .inr ⟨.decX, .cell, d, j, rfl⟩
  | decA d j => exact .inr ⟨.decY, .regA, d, j, rfl⟩
  | decM d j => exact .inr ⟨.decY, .cell, d, j, rfl⟩
  | addA d j => exact .inr ⟨.add, .regA, d, j, rfl⟩
  | addM d j => exact .inr ⟨.add, .cell, d, j, rfl⟩
  | subA d j => exact .inr ⟨.sub, .regA, d, j, rfl⟩
  | subM d j => exact .inr ⟨.sub, .cell, d, j, rfl⟩
  | rsubA d j => exact .inr ⟨.rsub, .regA, d, j, rfl⟩
  | rsubM d j => exact .inr ⟨.rsub, .cell, d, j, rfl⟩
  | andA d j => exact .inr ⟨.and, .regA, d, j, rfl⟩
  | andM d j => exact .inr ⟨.and, .cell, d, j, rfl⟩
  | orA d j => exact .inr ⟨.or, .regA, d, j, rfl⟩
  | orM d j => exact .inr ⟨.or, .cell, d, j, rfl⟩

/-- A compute instruction is well-formed: every value of its fields has a code. -/
theorem Instr.wf_compute (op : AluOp) (a : Source) (d : Dest) (j : Jump) : (Instr.compute op a d j).WellFormed := by
  cases op <;> cases a <;> rfl

theorem classify_address {w : Word} (h : w.msb = false) : classify w = .addressLoad ((bitField w 0 15).setWidth 16) := by
  simp [classify, h]

theorem classify_compute {w : Word} (h : w.msb = true) :
    classify w = .compute (.ofBit (bitField w 12 1)) (bitField w 6 6) (.ofBits (bitField w 3 3)) (.ofCode (bitField w 0 3)) := by
  simp [classify, h]

/-- The zero-extended low 15 bits of a word with bit 15 clear are the word (R65). -/
theorem literal_of_msb_false {w : Word} (h : w.msb = false) : (bitField w 0 15).setWidth 16 = w := by
  ext k hk
  have hk' : k < 16 := hk
  rw [BitVec.msb_eq_getLsbD_last] at h
  by_cases hk15 : k = 15
  · subst hk15; simpa [bitField] using h.symm
  · have : k < 15 := by omega
    simp [bitField, this, BitVec.getLsbD_eq_getElem hk']

/-- What decodes to what, said once: an address word to `@v`, a compute word by its code. -/
theorem decode_address {w : Word} (h : w.msb = false) : decode w = .instruction (.atV w) := by
  simp only [decode, classify_address h, literal_of_msb_false h]

theorem decode_compute {w : Word} (h : w.msb = true) {op : AluOp} (hc : AluOp.ofCode (bitField w 6 6) = some op) :
    decode w = .instruction (.compute op (.ofBit (bitField w 12 1)) (.ofBits (bitField w 3 3)) (.ofCode (bitField w 0 3))) := by
  simp only [decode, classify_compute h, hc]

theorem decode_illegal {w : Word} (h : w.msb = true) (hc : AluOp.ofCode (bitField w 6 6) = none) :
    decode w = .undecodableInstruction (.ofBit (bitField w 12 1)) (bitField w 6 6) := by
  simp only [decode, classify_compute h, hc]

end Sys2Proof
end

