-- ==== Sys2Proof/Laws/Memory.lean ====
section
/-! SUPPORT. The laws of a store: reading after writing, and that every write keeps the canonical form and the capacity. -/

namespace Sys2Proof.Machine

@[simp] theorem Memory.read_nil (i : Nat) : Memory.read [] i = 0 := rfl

theorem Memory.read_pair (k : Nat) (v : Word) (m : Memory) (i : Nat) :
    Memory.read ((k, v) :: m) i = if k = i then v else Memory.read m i := rfl

@[simp] theorem Memory.wfFrom_nil (lo : Nat) : Memory.wfFrom lo [] = true := rfl

theorem Memory.wfFrom_pair (lo k : Nat) (v : Word) (m : Memory) :
    Memory.wfFrom lo ((k, v) :: m) = true ↔ lo ≤ k ∧ v ≠ 0 ∧ Memory.wfFrom (k + 1) m = true := by
  simp [Memory.wfFrom, unlistedWord, and_assoc]

theorem Memory.wfFrom_mono {lo lo' : Nat} {m : Memory} (h : lo' ≤ lo) (hm : Memory.wfFrom lo m = true) :
    Memory.wfFrom lo' m = true := by
  cases m with
  | nil => rfl
  | cons c m => obtain ⟨k, v⟩ := c; rw [Memory.wfFrom_pair] at hm ⊢; exact ⟨h.trans hm.1, hm.2⟩

/-- Below its lower bound a canonical store lists nothing. -/
theorem Memory.read_below {lo i : Nat} {m : Memory} (hm : Memory.wfFrom lo m = true) (h : i < lo) :
    Memory.read m i = 0 := by
  induction m generalizing lo with
  | nil => rfl
  | cons c m ih =>
    obtain ⟨hk, -, hm⟩ := (Memory.wfFrom_pair ..).mp hm
    rw [Memory.read_pair, if_neg (by omega), ih hm (by omega)]

/-- At or beyond its capacity a store lists nothing. -/
theorem Memory.read_beyond {capacity i : Nat} {m : Memory} (hm : Memory.within capacity m = true) (h : capacity ≤ i) :
    Memory.read m i = 0 := by
  induction m with
  | nil => rfl
  | cons c m ih =>
    simp only [Memory.within, List.all_cons, Bool.and_eq_true, decide_eq_true_eq] at hm
    rw [Memory.read_pair, if_neg (by omega), ih hm.2]

theorem Memory.read_cons {lo i : Nat} {m : Memory} (hm : Memory.wfFrom lo m = true) (h : i < lo) (v : Word) (k : Nat) :
    Memory.read (Memory.cons i v m) k = if k = i then v else Memory.read m k := by
  unfold Memory.cons
  split
  · rename_i hv
    split
    · subst k; rw [Memory.read_below hm h, hv]; rfl
    · rfl
  · simp only [Memory.read_pair, eq_comm]

theorem Memory.wfFrom_cons {lo i : Nat} {m : Memory} (hm : Memory.wfFrom (i + 1) m = true) (h : lo ≤ i) (v : Word) :
    Memory.wfFrom lo (Memory.cons i v m) = true := by
  unfold Memory.cons
  split
  · exact Memory.wfFrom_mono (by omega) hm
  · exact (Memory.wfFrom_pair ..).mpr ⟨h, by assumption, hm⟩

/-- A write keeps the canonical form. -/
theorem Memory.wfFrom_write {lo : Nat} {m : Memory} (hm : Memory.wfFrom lo m = true) {i : Nat} (h : lo ≤ i) (v : Word) :
    Memory.wfFrom lo (Memory.write m i v) = true := by
  induction m generalizing lo with
  | nil => exact Memory.wfFrom_cons rfl h v
  | cons c m ih =>
    obtain ⟨hk, hv, hm'⟩ := (Memory.wfFrom_pair ..).mp hm
    simp only [Memory.write]
    split
    · exact Memory.wfFrom_cons ((Memory.wfFrom_pair ..).mpr ⟨by omega, hv, hm'⟩) h v
    · split
      · exact Memory.wfFrom_cons (by subst i; exact hm') h v
      · exact (Memory.wfFrom_pair ..).mpr ⟨hk, hv, ih hm' (by omega)⟩

/-- A write keeps the canonical form. -/
theorem Memory.wf_write {m : Memory} (hm : Memory.wf m = true) (i : Nat) (v : Word) :
    Memory.wf (Memory.write m i v) = true := Memory.wfFrom_write hm (Nat.zero_le i) v

/-- Reading after a write: the written cell holds the Word, every other cell reads as before. -/
theorem Memory.read_write {m : Memory} (hm : Memory.wf m = true) (i : Nat) (v : Word) (k : Nat) :
    Memory.read (Memory.write m i v) k = if k = i then v else Memory.read m k := by
  suffices ∀ lo, Memory.wfFrom lo m = true → lo ≤ i →
      Memory.read (Memory.write m i v) k = if k = i then v else Memory.read m k from this 0 hm (Nat.zero_le i)
  intro lo hm hlo
  clear * - hm hlo
  induction m generalizing lo with
  | nil => exact Memory.read_cons (lo := i + 1) rfl (by omega) v k
  | cons c m ih =>
    obtain ⟨hk, hv, hm'⟩ := (Memory.wfFrom_pair ..).mp hm
    simp only [Memory.write]
    split
    · exact Memory.read_cons ((Memory.wfFrom_pair ..).mpr ⟨le_rfl, hv, hm'⟩) (by assumption) v k
    · split
      · rw [Memory.read_cons (by subst i; exact hm') (by omega), Memory.read_pair]
        split <;> first | rfl | rw [if_neg (by omega)]
      · rw [Memory.read_pair, Memory.read_pair, ih _ hm' (by omega)]
        split
        · rw [if_neg (by omega)]
        · rfl

theorem Memory.within_cons {capacity i : Nat} {m : Memory} (hm : Memory.within capacity m = true) (h : i < capacity) (v : Word) :
    Memory.within capacity (Memory.cons i v m) = true := by
  unfold Memory.cons
  split
  · exact hm
  · simpa [Memory.within, h] using hm

/-- A write inside the capacity stays inside it. -/
theorem Memory.within_write {capacity i : Nat} {m : Memory} (hm : Memory.within capacity m = true) (h : i < capacity) (v : Word) :
    Memory.within capacity (Memory.write m i v) = true := by
  induction m with
  | nil => exact Memory.within_cons rfl h v
  | cons c m ih =>
    have hc : Memory.within capacity m = true := by
      simp only [Memory.within, List.all_cons, Bool.and_eq_true] at hm; exact hm.2
    simp only [Memory.write]
    split
    · exact Memory.within_cons hm h v
    · split
      · exact Memory.within_cons hc h v
      · simp only [Memory.within, List.all_cons, Bool.and_eq_true] at hm ⊢
        exact ⟨hm.1, ih hc⟩

/-- Writing a sequence keeps the canonical form. -/
theorem Memory.wf_writeFrom {m : Memory} (hm : Memory.wf m = true) (i : Nat) (ws : List Word) :
    Memory.wf (Memory.writeFrom m i ws) = true := by
  induction ws generalizing m i with
  | nil => exact hm
  | cons w ws ih => exact ih (Memory.wf_write hm i w) (i + 1)

/-- Writing a sequence inside the capacity stays inside it. -/
theorem Memory.within_writeFrom {capacity : Nat} {m : Memory} (hm : Memory.within capacity m = true) (i : Nat) (ws : List Word)
    (h : i + ws.length ≤ capacity) : Memory.within capacity (Memory.writeFrom m i ws) = true := by
  induction ws generalizing m i with
  | nil => exact hm
  | cons w ws ih =>
    simp only [List.length_cons] at h
    exact ih (Memory.within_write hm (by omega) w) (i + 1) (by omega)

end Sys2Proof.Machine
end

