-- ==== Sys2Proof/Laws/State.lean ====
section
/-! SUPPORT. One lemma per field per state update, so that no proof unfolds a record update. -/

namespace Sys2Proof.Machine

@[simp] theorem setA_regA (v : Word) (s : State) : (setA v s).regA = v := rfl
@[simp] theorem setA_regD (v : Word) (s : State) : (setA v s).regD = s.regD := rfl
@[simp] theorem setA_pc (v : Word) (s : State) : (setA v s).pc = s.pc := rfl
@[simp] theorem setA_prog (v : Word) (s : State) : (setA v s).prog = s.prog := rfl
@[simp] theorem setA_data (v : Word) (s : State) : (setA v s).data = s.data := rfl
@[simp] theorem setA_len (v : Word) (s : State) : (setA v s).len = s.len := rfl
@[simp] theorem setA_fault (v : Word) (s : State) : (setA v s).fault = s.fault := rfl
@[simp] theorem setA_loadOpen (v : Word) (s : State) : (setA v s).loadOpen = s.loadOpen := rfl
@[simp] theorem setA_dataWords (v : Word) (s : State) : (setA v s).dataWords = s.dataWords := rfl

@[simp] theorem setD_regA (v : Word) (s : State) : (setD v s).regA = s.regA := rfl
@[simp] theorem setD_regD (v : Word) (s : State) : (setD v s).regD = v := rfl
@[simp] theorem setD_pc (v : Word) (s : State) : (setD v s).pc = s.pc := rfl
@[simp] theorem setD_prog (v : Word) (s : State) : (setD v s).prog = s.prog := rfl
@[simp] theorem setD_data (v : Word) (s : State) : (setD v s).data = s.data := rfl
@[simp] theorem setD_len (v : Word) (s : State) : (setD v s).len = s.len := rfl
@[simp] theorem setD_fault (v : Word) (s : State) : (setD v s).fault = s.fault := rfl
@[simp] theorem setD_loadOpen (v : Word) (s : State) : (setD v s).loadOpen = s.loadOpen := rfl
@[simp] theorem setD_dataWords (v : Word) (s : State) : (setD v s).dataWords = s.dataWords := rfl

@[simp] theorem setPc_regA (n : Nat) (s : State) : (setPc n s).regA = s.regA := rfl
@[simp] theorem setPc_regD (n : Nat) (s : State) : (setPc n s).regD = s.regD := rfl
@[simp] theorem setPc_pc (n : Nat) (s : State) : (setPc n s).pc = BitVec.ofNat 16 n := rfl
@[simp] theorem setPc_prog (n : Nat) (s : State) : (setPc n s).prog = s.prog := rfl
@[simp] theorem setPc_data (n : Nat) (s : State) : (setPc n s).data = s.data := rfl
@[simp] theorem setPc_len (n : Nat) (s : State) : (setPc n s).len = s.len := rfl
@[simp] theorem setPc_fault (n : Nat) (s : State) : (setPc n s).fault = s.fault := rfl
@[simp] theorem setPc_loadOpen (n : Nat) (s : State) : (setPc n s).loadOpen = s.loadOpen := rfl
@[simp] theorem setPc_dataWords (n : Nat) (s : State) : (setPc n s).dataWords = s.dataWords := rfl

@[simp] theorem setData_regA (i : Nat) (v : Word) (s : State) : (setData i v s).regA = s.regA := rfl
@[simp] theorem setData_regD (i : Nat) (v : Word) (s : State) : (setData i v s).regD = s.regD := rfl
@[simp] theorem setData_pc (i : Nat) (v : Word) (s : State) : (setData i v s).pc = s.pc := rfl
@[simp] theorem setData_prog (i : Nat) (v : Word) (s : State) : (setData i v s).prog = s.prog := rfl
@[simp] theorem setData_data (i : Nat) (v : Word) (s : State) : (setData i v s).data = Memory.write s.data i v := rfl
@[simp] theorem setData_len (i : Nat) (v : Word) (s : State) : (setData i v s).len = s.len := rfl
@[simp] theorem setData_fault (i : Nat) (v : Word) (s : State) : (setData i v s).fault = s.fault := rfl
@[simp] theorem setData_loadOpen (i : Nat) (v : Word) (s : State) : (setData i v s).loadOpen = s.loadOpen := rfl
@[simp] theorem setData_dataWords (i : Nat) (v : Word) (s : State) : (setData i v s).dataWords = s.dataWords := rfl

@[simp] theorem closeLoad_regA (s : State) : (closeLoad s).regA = s.regA := rfl
@[simp] theorem closeLoad_regD (s : State) : (closeLoad s).regD = s.regD := rfl
@[simp] theorem closeLoad_pc (s : State) : (closeLoad s).pc = s.pc := rfl
@[simp] theorem closeLoad_prog (s : State) : (closeLoad s).prog = s.prog := rfl
@[simp] theorem closeLoad_data (s : State) : (closeLoad s).data = s.data := rfl
@[simp] theorem closeLoad_len (s : State) : (closeLoad s).len = s.len := rfl
@[simp] theorem closeLoad_fault (s : State) : (closeLoad s).fault = s.fault := rfl
@[simp] theorem closeLoad_loadOpen (s : State) : (closeLoad s).loadOpen = false := rfl
@[simp] theorem closeLoad_dataWords (s : State) : (closeLoad s).dataWords = s.dataWords := rfl

@[simp] theorem latchFault_regA (r : Fault) (s : State) : (latchFault r s).regA = s.regA := rfl
@[simp] theorem latchFault_regD (r : Fault) (s : State) : (latchFault r s).regD = s.regD := rfl
@[simp] theorem latchFault_pc (r : Fault) (s : State) : (latchFault r s).pc = s.pc := rfl
@[simp] theorem latchFault_prog (r : Fault) (s : State) : (latchFault r s).prog = s.prog := rfl
@[simp] theorem latchFault_data (r : Fault) (s : State) : (latchFault r s).data = s.data := rfl
@[simp] theorem latchFault_len (r : Fault) (s : State) : (latchFault r s).len = s.len := rfl
@[simp] theorem latchFault_fault (r : Fault) (s : State) : (latchFault r s).fault = some r := rfl
@[simp] theorem latchFault_loadOpen (r : Fault) (s : State) : (latchFault r s).loadOpen = s.loadOpen := rfl
@[simp] theorem latchFault_dataWords (r : Fault) (s : State) : (latchFault r s).dataWords = s.dataWords := rfl

@[simp] theorem placeFetchWord_regA (w : Word) (s : State) : (placeFetchWord w s).regA = s.regA := rfl
@[simp] theorem placeFetchWord_regD (w : Word) (s : State) : (placeFetchWord w s).regD = s.regD := rfl
@[simp] theorem placeFetchWord_pc (w : Word) (s : State) : (placeFetchWord w s).pc = s.pc := rfl
@[simp] theorem placeFetchWord_prog (w : Word) (s : State) : (placeFetchWord w s).prog = Memory.write s.prog s.pc.toNat w := rfl
@[simp] theorem placeFetchWord_data (w : Word) (s : State) : (placeFetchWord w s).data = s.data := rfl
@[simp] theorem placeFetchWord_len (w : Word) (s : State) : (placeFetchWord w s).len = s.len := rfl
@[simp] theorem placeFetchWord_fault (w : Word) (s : State) : (placeFetchWord w s).fault = none := rfl
@[simp] theorem placeFetchWord_loadOpen (w : Word) (s : State) : (placeFetchWord w s).loadOpen = s.loadOpen := rfl
@[simp] theorem placeFetchWord_dataWords (w : Word) (s : State) : (placeFetchWord w s).dataWords = s.dataWords := rfl

/-- Two states with equal fields are equal. -/
theorem State.ext_fields {s t : State} (h_regA : s.regA = t.regA) (h_regD : s.regD = t.regD) (h_pc : s.pc = t.pc) (h_prog : s.prog = t.prog) (h_data : s.data = t.data) (h_len : s.len = t.len) (h_fault : s.fault = t.fault) (h_loadOpen : s.loadOpen = t.loadOpen) (h_dataWords : s.dataWords = t.dataWords) :
    s = t := by
  cases s; cases t; simp_all

end Sys2Proof.Machine
end

