-- ==== Sys2Proof/Laws/Machine.lean ====
section
/-! SUPPORT. One specification lemma for each shared operation of the machine: everything it can do, said once. -/

namespace Sys2Proof.Machine

/-! ### Indices and the program counter -/

theorem mask15_eq (w : Word) : mask15 w = w.toNat % 32768 := by
  simp [mask15, BitVec.extractLsb'_toNat]

theorem mask15_lt (w : Word) : mask15 w < 32768 := by rw [mask15_eq]; omega

theorem mask15_of_msb_false {w : Word} (h : w.msb = false) : mask15 w = w.toNat := by
  rw [mask15_eq, Nat.mod_eq_of_lt]
  have := BitVec.msb_eq_decide w
  simp_all

/-- The literal an address instruction loads is below 32768. -/
theorem ofNat_mask15_toNat (w : Word) : (BitVec.ofNat 16 (mask15 w)).toNat = w.toNat % 32768 := by
  have := mask15_lt w
  rw [BitVec.toNat_ofNat, Nat.mod_eq_of_lt (by omega), mask15_eq]

theorem setPc_toNat {n : Nat} (h : n < 32768) (s : State) : (setPc n s).pc.toNat = n := by
  rw [setPc_pc, BitVec.toNat_ofNat, Nat.mod_eq_of_lt (by omega)]

theorem pcAfter_lt (pc : Word) : pcAfter pc < 32768 := Nat.mod_lt _ (by decide)

theorem advance_pc (s : State) : (advance s).pc.toNat = (s.pc.toNat + 1) % 32768 := setPc_toNat (pcAfter_lt s.pc) s

@[simp] theorem advance_regA (s : State) : (advance s).regA = s.regA := rfl
@[simp] theorem advance_regD (s : State) : (advance s).regD = s.regD := rfl
@[simp] theorem advance_prog (s : State) : (advance s).prog = s.prog := rfl
@[simp] theorem advance_data (s : State) : (advance s).data = s.data := rfl
@[simp] theorem advance_len (s : State) : (advance s).len = s.len := rfl
@[simp] theorem advance_fault (s : State) : (advance s).fault = s.fault := rfl
@[simp] theorem advance_loadOpen (s : State) : (advance s).loadOpen = s.loadOpen := rfl
@[simp] theorem advance_dataWords (s : State) : (advance s).dataWords = s.dataWords := rfl

/-! ### The jump -/

theorem jumpTaken_iff (j : Jump) (r : Word) : jumpTaken j r = true ↔ JumpHolds j r.toInt := by
  cases j <;> simp [jumpTaken, JumpHolds]

theorem jumpOrAdvance_of_taken {j : Jump} {r : Word} (h : jumpTaken j r = true) (s : State) :
    jumpOrAdvance j r s = setPc (mask15 s.regA) s := by simp [jumpOrAdvance, h]

theorem jumpOrAdvance_of_not_taken {j : Jump} {r : Word} (h : jumpTaken j r = false) (s : State) :
    jumpOrAdvance j r s = advance s := by simp [jumpOrAdvance, h]

/-- The end of a compute step writes `PC` and nothing else. -/
theorem jumpOrAdvance_eq_setPc (j : Jump) (r : Word) (s : State) : ∃ n < 32768, jumpOrAdvance j r s = setPc n s := by
  cases h : jumpTaken j r
  · exact ⟨_, pcAfter_lt s.pc, jumpOrAdvance_of_not_taken h s⟩
  · exact ⟨_, mask15_lt s.regA, jumpOrAdvance_of_taken h s⟩

/-! ### Memory accesses, operand and destinations -/

theorem memRead_of_lt {s : State} {ea : Nat} (h : ea < s.dataWords) : memRead s ea = .ok (Memory.read s.data ea) := by
  simp [memRead, h]

theorem memRead_of_le {s : State} {ea : Nat} (h : s.dataWords ≤ ea) :
    memRead s ea = .error (.outOfRangeOperandRead s.pc (instructionWord s) ea) := by
  simp [memRead, Nat.not_lt.mpr h]

theorem memWrite_of_lt {s : State} {ea : Nat} (h : ea < s.dataWords) (v : Word) : memWrite s ea v = .ok (setData ea v s) := by
  simp [memWrite, h]

theorem memWrite_of_le {s : State} {ea : Nat} (h : s.dataWords ≤ ea) (v : Word) :
    memWrite s ea v = .error (.outOfRangeDataWrite s.pc (instructionWord s) ea) := by
  simp [memWrite, Nat.not_lt.mpr h]

theorem progRead_of_lt {s : State} {i : Nat} (h : i < 32768) : progRead s i = .ok (Memory.read s.prog i) := by
  simp [progRead, Config.progWords, h]

theorem progRead_of_le {s : State} {i : Nat} (h : 32768 ≤ i) : progRead s i = .error (.outOfRangeFetch s.pc) := by
  simp [progRead, Config.progWords, Nat.not_lt.mpr h]

theorem resolveOperand_in_range {a : Source} {s : State} (h : a = .cell → effectiveAddress s < s.dataWords) :
    resolveOperand a s = .ok (operandValue a s) := by
  cases a
  · rfl
  · exact memRead_of_lt (h rfl)

theorem resolveOperand_out_of_range {s : State} (h : s.dataWords ≤ effectiveAddress s) :
    resolveOperand .cell s = .error (.outOfRangeOperandRead s.pc (instructionWord s) (effectiveAddress s)) := memRead_of_le h

/-- The state after the destination writes of R126, where the memory write is in range. -/
def routed (d : Dest) (r : Word) (s : State) : State :=
  routeA d r (routeD d r (if d.m then setData (effectiveAddress s) r s else s))

theorem routeResult_in_range {d : Dest} {s : State} (h : d.m = true → effectiveAddress s < s.dataWords) (r : Word) :
    routeResult d (effectiveAddress s) r s = .ok (routed d r s) := by
  unfold routeResult routeMemory routed
  cases hm : d.m
  · simp
  · simp [memWrite_of_lt (h hm)]

theorem routeResult_out_of_range {d : Dest} {s : State} (hm : d.m = true) (h : s.dataWords ≤ effectiveAddress s) (r : Word) :
    routeResult d (effectiveAddress s) r s = .error (.outOfRangeDataWrite s.pc (instructionWord s) (effectiveAddress s)) := by
  simp [routeResult, routeMemory, hm, memWrite_of_le h]

section routed
variable (d : Dest) (r : Word) (s : State)

@[simp] theorem routed_regA : (routed d r s).regA = if d.a then r else s.regA := by
  simp only [routed, routeA, routeD]; split <;> split <;> split <;> rfl
@[simp] theorem routed_regD : (routed d r s).regD = if d.d then r else s.regD := by
  simp only [routed, routeA, routeD]; split <;> split <;> split <;> rfl
@[simp] theorem routed_data :
    (routed d r s).data = if d.m then Memory.write s.data (effectiveAddress s) r else s.data := by
  simp only [routed, routeA, routeD]; split <;> split <;> split <;> rfl
@[simp] theorem routed_pc : (routed d r s).pc = s.pc := by
  simp only [routed, routeA, routeD]; split <;> split <;> split <;> rfl
@[simp] theorem routed_prog : (routed d r s).prog = s.prog := by
  simp only [routed, routeA, routeD]; split <;> split <;> split <;> rfl
@[simp] theorem routed_len : (routed d r s).len = s.len := by
  simp only [routed, routeA, routeD]; split <;> split <;> split <;> rfl
@[simp] theorem routed_fault : (routed d r s).fault = s.fault := by
  simp only [routed, routeA, routeD]; split <;> split <;> split <;> rfl
@[simp] theorem routed_loadOpen : (routed d r s).loadOpen = s.loadOpen := by
  simp only [routed, routeA, routeD]; split <;> split <;> split <;> rfl
@[simp] theorem routed_dataWords : (routed d r s).dataWords = s.dataWords := by
  simp only [routed, routeA, routeD]; split <;> split <;> split <;> rfl

end routed

/-! ### The compute step -/

/-- In range, a compute step answers the routed state with its program counter updated. -/
theorem compute_in_range {op : AluOp} {a : Source} {d : Dest} {s : State} (h : AccessesInRange a d s) (j : Jump) :
    compute op a d j s =
      .next (jumpOrAdvance j (alu op s.regD (operandValue a s)) (routed d (alu op s.regD (operandValue a s)) s)) := by
  simp only [compute, resolveOperand_in_range fun ha => h (.inl ha), routeResult_in_range fun hm => h (.inr hm)]

/-- An out-of-range operand read stops the step first (R152). -/
theorem compute_read_out_of_range {s : State} (h : s.dataWords ≤ effectiveAddress s) (op : AluOp) (d : Dest) (j : Jump) :
    compute op .cell d j s = .fault (.outOfRangeOperandRead s.pc (instructionWord s) (effectiveAddress s)) := by
  simp only [compute, resolveOperand_out_of_range h, raise]

/-- An out-of-range memory write stops a step that reads no cell. -/
theorem compute_write_out_of_range {d : Dest} {s : State} (hm : d.m = true) (h : s.dataWords ≤ effectiveAddress s) (op : AluOp)
    (j : Jump) :
    compute op .regA d j s = .fault (.outOfRangeDataWrite s.pc (instructionWord s) (effectiveAddress s)) := by
  simp only [compute, resolveOperand, routeResult_out_of_range hm h, raise]

/-- Everything a compute step can do. -/
theorem compute_cases (op : AluOp) (a : Source) (d : Dest) (j : Jump) (s : State) :
    (AccessesInRange a d s ∧ compute op a d j s =
      .next (jumpOrAdvance j (alu op s.regD (operandValue a s)) (routed d (alu op s.regD (operandValue a s)) s))) ∨
    (a = .cell ∧ s.dataWords ≤ effectiveAddress s ∧
      compute op a d j s = .fault (.outOfRangeOperandRead s.pc (instructionWord s) (effectiveAddress s))) ∨
    (a = .regA ∧ d.m = true ∧ s.dataWords ≤ effectiveAddress s ∧
      compute op a d j s = .fault (.outOfRangeDataWrite s.pc (instructionWord s) (effectiveAddress s))) := by
  by_cases hr : effectiveAddress s < s.dataWords
  · exact .inl ⟨fun _ => hr, compute_in_range (fun _ => hr) j⟩
  · have hr := Nat.not_lt.mp hr
    cases a
    · cases hm : d.m
      · have : AccessesInRange .regA d s := by simp [AccessesInRange, hm]
        exact .inl ⟨this, compute_in_range this j⟩
      · exact .inr (.inr ⟨rfl, rfl, hr, compute_write_out_of_range hm hr op j⟩)
    · exact .inr (.inl ⟨rfl, hr, compute_read_out_of_range hr op d j⟩)

/-- Everything an illegal compute code can do (R88, R89, R152). -/
theorem executeUndecodable_cases (a : Source) (c : BitVec 6) (s : State) :
    ((a = .cell → effectiveAddress s < s.dataWords) ∧
      executeUndecodable a c s = .fault (.undecodableInstruction s.pc (instructionWord s) c)) ∨
    (a = .cell ∧ s.dataWords ≤ effectiveAddress s ∧
      executeUndecodable a c s = .fault (.outOfRangeOperandRead s.pc (instructionWord s) (effectiveAddress s))) := by
  by_cases h : a = .cell → effectiveAddress s < s.dataWords
  · exact .inl ⟨h, by simp only [executeUndecodable, resolveOperand_in_range h, raise]⟩
  · obtain ⟨rfl, hr⟩ : a = .cell ∧ s.dataWords ≤ effectiveAddress s := by simpa using h
    exact .inr ⟨rfl, hr, by simp only [executeUndecodable, resolveOperand_out_of_range hr, raise]⟩

/-! ### exec -/

@[simp] theorem exec_atV (v : Word) (s : State) : exec (.atV v) s = .next (advance (setA (BitVec.ofNat 16 (mask15 v)) s)) := rfl

/-- The meaning of each compute instruction is the compute step with its operation and operand source. -/
theorem exec_compute (op : AluOp) (a : Source) (d : Dest) (j : Jump) (s : State) :
    exec (Instr.compute op a d j) s = compute op a d j s := by cases op <;> cases a <;> rfl

/-! ### The step -/

theorem step_of_fault {s : State} {r : Fault} (h : s.fault = some r) : step s = .fault r := by simp [step, h, raise]

theorem step_of_no_fault {s : State} (h : s.fault = none) : step s = fetchDecodeExecute s := by simp [step, h]

theorem fetchDecodeExecute_of_lt {s : State} (h : s.pc.toNat < 32768) :
    fetchDecodeExecute s = executeWord (instructionWord s) (closeLoad s) := by
  simp only [fetchDecodeExecute, progRead_of_lt h, instructionWord]

theorem fetchDecodeExecute_of_le {s : State} (h : 32768 ≤ s.pc.toNat) :
    fetchDecodeExecute s = .fault (.outOfRangeFetch s.pc) := by
  simp only [fetchDecodeExecute, progRead_of_le h, raise]

theorem executeWord_instruction {w : Word} {i : Instr} (h : decode w = .instruction i) (s : State) :
    executeWord w s = exec i s := by simp only [executeWord, h]

theorem executeWord_undecodable {w : Word} {a : Source} {c : BitVec 6} (h : decode w = .undecodableInstruction a c) (s : State) :
    executeWord w s = executeUndecodable a c s := by simp only [executeWord, h]

@[simp] theorem instructionWord_closeLoad (s : State) : instructionWord (closeLoad s) = instructionWord s := rfl
@[simp] theorem effectiveAddress_closeLoad (s : State) : effectiveAddress (closeLoad s) = effectiveAddress s := rfl
@[simp] theorem operandValue_closeLoad (a : Source) (s : State) : operandValue a (closeLoad s) = operandValue a s := by
  cases a <;> rfl

/-- Everything a step that answers a next state has done: no fault was latched, the fetch was in range, and the word was an address
instruction or a legal compute instruction whose accesses are in range. -/
theorem step_next_cases {s t : State} (h : step s = .next t) :
    s.fault = none ∧ s.pc.toNat < 32768 ∧
    ((∃ v, decode (instructionWord s) = .instruction (.atV v) ∧ t = advance (setA (BitVec.ofNat 16 (mask15 v)) (closeLoad s))) ∨
     (∃ op a d j, decode (instructionWord s) = .instruction (Instr.compute op a d j) ∧ AccessesInRange a d s ∧
       t = jumpOrAdvance j (alu op s.regD (operandValue a s)) (routed d (alu op s.regD (operandValue a s)) (closeLoad s)))) := by
  cases hf : s.fault with
  | some r => rw [step_of_fault hf] at h; cases h
  | none =>
    rw [step_of_no_fault hf] at h
    by_cases hpc : s.pc.toNat < 32768
    · refine ⟨rfl, hpc, ?_⟩
      rw [fetchDecodeExecute_of_lt hpc] at h
      cases hd : decode (instructionWord s) with
      | undecodableInstruction a c =>
        rw [executeWord_undecodable hd] at h
        obtain ⟨-, h'⟩ | ⟨-, -, h'⟩ := executeUndecodable_cases a c (closeLoad s) <;> rw [h'] at h <;> cases h
      | instruction i =>
        rw [executeWord_instruction hd] at h
        obtain ⟨v, rfl⟩ | ⟨op, a, d, j, rfl⟩ := Instr.cases_compute i
        · exact .inl ⟨v, rfl, by simpa using h.symm⟩
        · rw [exec_compute] at h
          obtain ⟨hr, h'⟩ | ⟨-, -, h'⟩ | ⟨-, -, -, h'⟩ := compute_cases op a d j (closeLoad s) <;> rw [h'] at h
          · exact .inr ⟨op, a, d, j, rfl, hr, by simpa using h.symm⟩
          · cases h
          · cases h
    · rw [fetchDecodeExecute_of_le (Nat.not_lt.mp hpc)] at h; cases h

/-- Everything a step that answers a fault has met, with the record it reports (R141, R152). -/
theorem step_fault_cases {s : State} {r : Fault} (h : step s = .fault r) :
    s.fault = some r ∨
    (s.fault = none ∧ 32768 ≤ s.pc.toNat ∧ r = .outOfRangeFetch s.pc) ∨
    (s.fault = none ∧ s.pc.toNat < 32768 ∧
      ((∃ a c, decode (instructionWord s) = .undecodableInstruction a c ∧ (a = .cell → effectiveAddress s < s.dataWords) ∧
          r = .undecodableInstruction s.pc (instructionWord s) c) ∨
       (s.dataWords ≤ effectiveAddress s ∧
          (r = .outOfRangeOperandRead s.pc (instructionWord s) (effectiveAddress s) ∨
           r = .outOfRangeDataWrite s.pc (instructionWord s) (effectiveAddress s))))) := by
  cases hf : s.fault with
  | some r' => rw [step_of_fault hf] at h; cases h; exact .inl rfl
  | none =>
    rw [step_of_no_fault hf] at h
    by_cases hpc : s.pc.toNat < 32768
    · refine .inr (.inr ⟨rfl, hpc, ?_⟩)
      rw [fetchDecodeExecute_of_lt hpc] at h
      cases hd : decode (instructionWord s) with
      | undecodableInstruction a c =>
        rw [executeWord_undecodable hd] at h
        obtain ⟨ha, h'⟩ | ⟨-, hr, h'⟩ := executeUndecodable_cases a c (closeLoad s) <;> rw [h'] at h <;> cases h
        · exact .inl ⟨a, c, rfl, ha, rfl⟩
        · exact .inr ⟨hr, .inl rfl⟩
      | instruction i =>
        rw [executeWord_instruction hd] at h
        obtain ⟨v, rfl⟩ | ⟨op, a, d, j, rfl⟩ := Instr.cases_compute i
        · cases h
        · rw [exec_compute] at h
          obtain ⟨-, h'⟩ | ⟨-, hr, h'⟩ | ⟨-, -, hr, h'⟩ := compute_cases op a d j (closeLoad s) <;> rw [h'] at h <;> cases h
          · exact .inr ⟨hr, .inl rfl⟩
          · exact .inr ⟨hr, .inr rfl⟩
    · rw [fetchDecodeExecute_of_le (Nat.not_lt.mp hpc)] at h
      cases h
      exact .inr (.inl ⟨rfl, Nat.not_lt.mp hpc, rfl⟩)

end Sys2Proof.Machine
end

