-- ==== Sys2Proof/Laws/Host.lean ====
section
/-! SUPPORT. The host's actions and the host's own run of the machine, one step at a time. -/

namespace Sys2Proof.Machine

/-- One step of `Host.Core.run`. -/
theorem run_succ (M : Host.Core) (k : Nat) (s : M.State) :
    M.run (k + 1) s = (match M.step s with
      | .next s' => M.run k s'
      | .fault r => .fault r
      | .refused r => .refused r) := rfl

theorem run_succ_next (M : Host.Core) {s t : M.State} (h : M.step s = .next t) (k : Nat) : M.run (k + 1) s = M.run k t := by
  rw [run_succ, h]

theorem run_succ_fault (M : Host.Core) {s : M.State} {r : M.Fault} (h : M.step s = .fault r) (k : Nat) :
    M.run (k + 1) s = .fault r := by rw [run_succ, h]

/-- The same for this machine. -/
theorem run_succ_of_next {s t : State} (h : step s = .next t) (k : Nat) :
    Host.Core.run Sys2Proof.core (k + 1) s = Host.Core.run Sys2Proof.core k t := run_succ_next Sys2Proof.core h k

theorem run_succ_of_fault {s : State} {r : Fault} (h : step s = .fault r) (k : Nat) :
    Host.Core.run Sys2Proof.core (k + 1) s = .fault r := run_succ_fault Sys2Proof.core h k

theorem hostStep_of_next {s t : State} (h : step s = .next t) : hostStep s = (t, .ok) := by simp only [hostStep, h]

theorem hostStep_of_fault {s : State} {r : Fault} (h : step s = .fault r) : hostStep s = (latchFault r s, .fault r) := by
  simp only [hostStep, h]

theorem hostRun_succ_of_next {s t : State} (h : step s = .next t) (n : Nat) : hostRun (n + 1) s = hostRun n t := by
  simp only [hostRun, hostStep_of_next h]

theorem hostRun_succ_of_fault {s : State} {r : Fault} (h : step s = .fault r) (n : Nat) :
    hostRun (n + 1) s = (latchFault r s, .fault r) := by simp only [hostRun, hostStep_of_fault h]

/-- Everything a load can do (R172, R173). -/
theorem hostLoad_cases (words : List Word) (s : State) :
    ((s.loadOpen = false ∨ s.fault.isSome = true) ∧ hostLoad words s = (s, .loadRefused)) ∨
    (s.loadOpen = true ∧ s.fault = none ∧ 32768 < words.length ∧ hostLoad words s = (s, .programTooLarge words.length)) ∨
    (s.loadOpen = true ∧ s.fault = none ∧ words.length ≤ 32768 ∧
      hostLoad words s = (closeLoad { s with prog := Memory.writeFrom s.prog 0 words, len := words.length }, .ok)) := by
  by_cases h : (!s.loadOpen || s.fault.isSome) = true
  · exact .inl ⟨by simpa using h, by simp only [hostLoad, h, if_true]⟩
  · have ho : s.loadOpen = true ∧ s.fault = none := by simpa using h
    by_cases hl : Config.progWords < words.length
    · exact .inr (.inl ⟨ho.1, ho.2, hl, by simp only [hostLoad, if_neg h, if_pos hl]⟩)
    · exact .inr (.inr ⟨ho.1, ho.2, Nat.not_lt.mp hl, by simp only [hostLoad, if_neg h, if_neg hl]⟩)

end Sys2Proof.Machine
end

