-- ==== Sys2Proof/Laws/PerInstr.lean ====
section
/-! SUPPORT. Per-instruction law `TableRow`: the encoder agrees with `spec/opcode_table.json`. For each row the word of a well-formed
instruction has the row's fixed bits (its `match` under its `mask`), for every operand. -/

namespace Sys2Proof.Laws

/-- The `mask` and `match` of an instruction's row, copied from `spec/opcode_table.json`. -/
def rowPattern : Instr → Word × Word
  | .atV _ => (0x8000#16, 0x0000#16)
  | .zero _ _ => (0x9FC0#16, 0x8A80#16)
  | .zeroReadM _ _ => (0x9FC0#16, 0x9A80#16)
  | .one _ _ => (0x9FC0#16, 0x8FC0#16)
  | .oneReadM _ _ => (0x9FC0#16, 0x9FC0#16)
  | .negOne _ _ => (0x9FC0#16, 0x8E80#16)
  | .negOneReadM _ _ => (0x9FC0#16, 0x9E80#16)
  | .passD _ _ => (0x9FC0#16, 0x8300#16)
  | .passDReadM _ _ => (0x9FC0#16, 0x9300#16)
  | .passA _ _ => (0x9FC0#16, 0x8C00#16)
  | .passM _ _ => (0x9FC0#16, 0x9C00#16)
  | .notD _ _ => (0x9FC0#16, 0x8340#16)
  | .notDReadM _ _ => (0x9FC0#16, 0x9340#16)
  | .notA _ _ => (0x9FC0#16, 0x8C40#16)
  | .notM _ _ => (0x9FC0#16, 0x9C40#16)
  | .negD _ _ => (0x9FC0#16, 0x83C0#16)
  | .negDReadM _ _ => (0x9FC0#16, 0x93C0#16)
  | .negA _ _ => (0x9FC0#16, 0x8CC0#16)
  | .negM _ _ => (0x9FC0#16, 0x9CC0#16)
  | .incD _ _ => (0x9FC0#16, 0x87C0#16)
  | .incDReadM _ _ => (0x9FC0#16, 0x97C0#16)
  | .incA _ _ => (0x9FC0#16, 0x8DC0#16)
  | .incM _ _ => (0x9FC0#16, 0x9DC0#16)
  | .decD _ _ => (0x9FC0#16, 0x8380#16)
  | .decDReadM _ _ => (0x9FC0#16, 0x9380#16)
  | .decA _ _ => (0x9FC0#16, 0x8C80#16)
  | .decM _ _ => (0x9FC0#16, 0x9C80#16)
  | .addA _ _ => (0x9FC0#16, 0x8080#16)
  | .addM _ _ => (0x9FC0#16, 0x9080#16)
  | .subA _ _ => (0x9FC0#16, 0x84C0#16)
  | .subM _ _ => (0x9FC0#16, 0x94C0#16)
  | .rsubA _ _ => (0x9FC0#16, 0x81C0#16)
  | .rsubM _ _ => (0x9FC0#16, 0x91C0#16)
  | .andA _ _ => (0x9FC0#16, 0x8000#16)
  | .andM _ _ => (0x9FC0#16, 0x9000#16)
  | .orA _ _ => (0x9FC0#16, 0x8540#16)
  | .orM _ _ => (0x9FC0#16, 0x9540#16)

/-- A well-formed instruction's word matches its opcode-table row. -/
def TableRow.Statement (i : Instr) : Prop := i.WellFormed → encode i &&& (rowPattern i).1 = (rowPattern i).2

/-- The fixed bits of a compute word do not depend on its destination and jump fields. -/
theorem encodeCompute_fixed_bits (op : AluOp) (a : Source) (d : Dest) (j : Jump) :
    encodeCompute op a d j &&& 0x9FC0#16 = encodeCompute op a ⟨false, false, false⟩ .never &&& 0x9FC0#16 := by
  obtain ⟨da, dd, dm⟩ := d
  cases op <;> cases a <;> cases da <;> cases dd <;> cases dm <;> cases j <;> rfl

theorem TableRow.atV (v : Word) : TableRow.Statement (.atV v) := by
  intro h
  simp only [Instr.WellFormed, Instr.wf, Bool.not_eq_true', BitVec.msb_eq_getLsbD_last] at h
  simp only [encode, rowPattern]
  ext k hk
  have : k < 16 := hk
  interval_cases k <;> simp_all

theorem TableRow.zero (d : Dest) (j : Jump) : TableRow.Statement (.zero d j) := fun _ =>
  (encodeCompute_fixed_bits .zero .regA d j).trans rfl

theorem TableRow.zeroReadM (d : Dest) (j : Jump) : TableRow.Statement (.zeroReadM d j) := fun _ =>
  (encodeCompute_fixed_bits .zero .cell d j).trans rfl

theorem TableRow.one (d : Dest) (j : Jump) : TableRow.Statement (.one d j) := fun _ =>
  (encodeCompute_fixed_bits .one .regA d j).trans rfl

theorem TableRow.oneReadM (d : Dest) (j : Jump) : TableRow.Statement (.oneReadM d j) := fun _ =>
  (encodeCompute_fixed_bits .one .cell d j).trans rfl

theorem TableRow.negOne (d : Dest) (j : Jump) : TableRow.Statement (.negOne d j) := fun _ =>
  (encodeCompute_fixed_bits .negOne .regA d j).trans rfl

theorem TableRow.negOneReadM (d : Dest) (j : Jump) : TableRow.Statement (.negOneReadM d j) := fun _ =>
  (encodeCompute_fixed_bits .negOne .cell d j).trans rfl

theorem TableRow.passD (d : Dest) (j : Jump) : TableRow.Statement (.passD d j) := fun _ =>
  (encodeCompute_fixed_bits .x .regA d j).trans rfl

theorem TableRow.passDReadM (d : Dest) (j : Jump) : TableRow.Statement (.passDReadM d j) := fun _ =>
  (encodeCompute_fixed_bits .x .cell d j).trans rfl

theorem TableRow.passA (d : Dest) (j : Jump) : TableRow.Statement (.passA d j) := fun _ =>
  (encodeCompute_fixed_bits .y .regA d j).trans rfl

theorem TableRow.passM (d : Dest) (j : Jump) : TableRow.Statement (.passM d j) := fun _ =>
  (encodeCompute_fixed_bits .y .cell d j).trans rfl

theorem TableRow.notD (d : Dest) (j : Jump) : TableRow.Statement (.notD d j) := fun _ =>
  (encodeCompute_fixed_bits .notX .regA d j).trans rfl

theorem TableRow.notDReadM (d : Dest) (j : Jump) : TableRow.Statement (.notDReadM d j) := fun _ =>
  (encodeCompute_fixed_bits .notX .cell d j).trans rfl

theorem TableRow.notA (d : Dest) (j : Jump) : TableRow.Statement (.notA d j) := fun _ =>
  (encodeCompute_fixed_bits .notY .regA d j).trans rfl

theorem TableRow.notM (d : Dest) (j : Jump) : TableRow.Statement (.notM d j) := fun _ =>
  (encodeCompute_fixed_bits .notY .cell d j).trans rfl

theorem TableRow.negD (d : Dest) (j : Jump) : TableRow.Statement (.negD d j) := fun _ =>
  (encodeCompute_fixed_bits .negX .regA d j).trans rfl

theorem TableRow.negDReadM (d : Dest) (j : Jump) : TableRow.Statement (.negDReadM d j) := fun _ =>
  (encodeCompute_fixed_bits .negX .cell d j).trans rfl

theorem TableRow.negA (d : Dest) (j : Jump) : TableRow.Statement (.negA d j) := fun _ =>
  (encodeCompute_fixed_bits .negY .regA d j).trans rfl

theorem TableRow.negM (d : Dest) (j : Jump) : TableRow.Statement (.negM d j) := fun _ =>
  (encodeCompute_fixed_bits .negY .cell d j).trans rfl

theorem TableRow.incD (d : Dest) (j : Jump) : TableRow.Statement (.incD d j) := fun _ =>
  (encodeCompute_fixed_bits .incX .regA d j).trans rfl

theorem TableRow.incDReadM (d : Dest) (j : Jump) : TableRow.Statement (.incDReadM d j) := fun _ =>
  (encodeCompute_fixed_bits .incX .cell d j).trans rfl

theorem TableRow.incA (d : Dest) (j : Jump) : TableRow.Statement (.incA d j) := fun _ =>
  (encodeCompute_fixed_bits .incY .regA d j).trans rfl

theorem TableRow.incM (d : Dest) (j : Jump) : TableRow.Statement (.incM d j) := fun _ =>
  (encodeCompute_fixed_bits .incY .cell d j).trans rfl

theorem TableRow.decD (d : Dest) (j : Jump) : TableRow.Statement (.decD d j) := fun _ =>
  (encodeCompute_fixed_bits .decX .regA d j).trans rfl

theorem TableRow.decDReadM (d : Dest) (j : Jump) : TableRow.Statement (.decDReadM d j) := fun _ =>
  (encodeCompute_fixed_bits .decX .cell d j).trans rfl

theorem TableRow.decA (d : Dest) (j : Jump) : TableRow.Statement (.decA d j) := fun _ =>
  (encodeCompute_fixed_bits .decY .regA d j).trans rfl

theorem TableRow.decM (d : Dest) (j : Jump) : TableRow.Statement (.decM d j) := fun _ =>
  (encodeCompute_fixed_bits .decY .cell d j).trans rfl

theorem TableRow.addA (d : Dest) (j : Jump) : TableRow.Statement (.addA d j) := fun _ =>
  (encodeCompute_fixed_bits .add .regA d j).trans rfl

theorem TableRow.addM (d : Dest) (j : Jump) : TableRow.Statement (.addM d j) := fun _ =>
  (encodeCompute_fixed_bits .add .cell d j).trans rfl

theorem TableRow.subA (d : Dest) (j : Jump) : TableRow.Statement (.subA d j) := fun _ =>
  (encodeCompute_fixed_bits .sub .regA d j).trans rfl

theorem TableRow.subM (d : Dest) (j : Jump) : TableRow.Statement (.subM d j) := fun _ =>
  (encodeCompute_fixed_bits .sub .cell d j).trans rfl

theorem TableRow.rsubA (d : Dest) (j : Jump) : TableRow.Statement (.rsubA d j) := fun _ =>
  (encodeCompute_fixed_bits .rsub .regA d j).trans rfl

theorem TableRow.rsubM (d : Dest) (j : Jump) : TableRow.Statement (.rsubM d j) := fun _ =>
  (encodeCompute_fixed_bits .rsub .cell d j).trans rfl

theorem TableRow.andA (d : Dest) (j : Jump) : TableRow.Statement (.andA d j) := fun _ =>
  (encodeCompute_fixed_bits .and .regA d j).trans rfl

theorem TableRow.andM (d : Dest) (j : Jump) : TableRow.Statement (.andM d j) := fun _ =>
  (encodeCompute_fixed_bits .and .cell d j).trans rfl

theorem TableRow.orA (d : Dest) (j : Jump) : TableRow.Statement (.orA d j) := fun _ =>
  (encodeCompute_fixed_bits .or .regA d j).trans rfl

theorem TableRow.orM (d : Dest) (j : Jump) : TableRow.Statement (.orM d j) := fun _ =>
  (encodeCompute_fixed_bits .or .cell d j).trans rfl

end Sys2Proof.Laws
end

