-- ==== Sys2Proof/Tests/Slice0.lean ====
section
/-! SUPPORT. The model's own tests: expected results are the spec's (`spec/30_encoding.md` R67 to R69, `spec/95_test_vectors.md`); the
witnesses at the end meet the hypotheses of the statements. -/

namespace Sys2Proof.Tests

open Sys2Proof Sys2Proof.Machine

/-! ### Well-formedness: one check, on the literal of `@v` -/

theorem test_wf_refuses_literal_with_bit_15 : ¬ (Instr.atV 0x8000#16).WellFormed := by decide
theorem test_wf_accepts_largest_literal : (Instr.atV 0x7FFF#16).WellFormed := by decide

/-! ### Decoding: one word for each constructor, its bits from `spec/30_encoding.md` R62, R67, R68 with `d = 010`, `j = 000` -/

theorem test_decode_atV : decode 0b0101101001011010#16 = .instruction (.atV 0x5A5A#16) := by decide
theorem test_decode_zero : decode 0b1110101010010000#16 = .instruction (.zero ⟨false, true, false⟩ .never) := by decide
theorem test_decode_zeroReadM : decode 0b1111101010010000#16 = .instruction (.zeroReadM ⟨false, true, false⟩ .never) := by decide
theorem test_decode_one : decode 0b1110111111010000#16 = .instruction (.one ⟨false, true, false⟩ .never) := by decide
theorem test_decode_oneReadM : decode 0b1111111111010000#16 = .instruction (.oneReadM ⟨false, true, false⟩ .never) := by decide
theorem test_decode_negOne : decode 0b1110111010010000#16 = .instruction (.negOne ⟨false, true, false⟩ .never) := by decide
theorem test_decode_negOneReadM : decode 0b1111111010010000#16 = .instruction (.negOneReadM ⟨false, true, false⟩ .never) := by decide
theorem test_decode_passD : decode 0b1110001100010000#16 = .instruction (.passD ⟨false, true, false⟩ .never) := by decide
theorem test_decode_passDReadM : decode 0b1111001100010000#16 = .instruction (.passDReadM ⟨false, true, false⟩ .never) := by decide
theorem test_decode_passA : decode 0b1110110000010000#16 = .instruction (.passA ⟨false, true, false⟩ .never) := by decide
theorem test_decode_passM : decode 0b1111110000010000#16 = .instruction (.passM ⟨false, true, false⟩ .never) := by decide
theorem test_decode_notD : decode 0b1110001101010000#16 = .instruction (.notD ⟨false, true, false⟩ .never) := by decide
theorem test_decode_notDReadM : decode 0b1111001101010000#16 = .instruction (.notDReadM ⟨false, true, false⟩ .never) := by decide
theorem test_decode_notA : decode 0b1110110001010000#16 = .instruction (.notA ⟨false, true, false⟩ .never) := by decide
theorem test_decode_notM : decode 0b1111110001010000#16 = .instruction (.notM ⟨false, true, false⟩ .never) := by decide
theorem test_decode_negD : decode 0b1110001111010000#16 = .instruction (.negD ⟨false, true, false⟩ .never) := by decide
theorem test_decode_negDReadM : decode 0b1111001111010000#16 = .instruction (.negDReadM ⟨false, true, false⟩ .never) := by decide
theorem test_decode_negA : decode 0b1110110011010000#16 = .instruction (.negA ⟨false, true, false⟩ .never) := by decide
theorem test_decode_negM : decode 0b1111110011010000#16 = .instruction (.negM ⟨false, true, false⟩ .never) := by decide
theorem test_decode_incD : decode 0b1110011111010000#16 = .instruction (.incD ⟨false, true, false⟩ .never) := by decide
theorem test_decode_incDReadM : decode 0b1111011111010000#16 = .instruction (.incDReadM ⟨false, true, false⟩ .never) := by decide
theorem test_decode_incA : decode 0b1110110111010000#16 = .instruction (.incA ⟨false, true, false⟩ .never) := by decide
theorem test_decode_incM : decode 0b1111110111010000#16 = .instruction (.incM ⟨false, true, false⟩ .never) := by decide
theorem test_decode_decD : decode 0b1110001110010000#16 = .instruction (.decD ⟨false, true, false⟩ .never) := by decide
theorem test_decode_decDReadM : decode 0b1111001110010000#16 = .instruction (.decDReadM ⟨false, true, false⟩ .never) := by decide
theorem test_decode_decA : decode 0b1110110010010000#16 = .instruction (.decA ⟨false, true, false⟩ .never) := by decide
theorem test_decode_decM : decode 0b1111110010010000#16 = .instruction (.decM ⟨false, true, false⟩ .never) := by decide
theorem test_decode_addA : decode 0b1110000010010000#16 = .instruction (.addA ⟨false, true, false⟩ .never) := by decide
theorem test_decode_addM : decode 0b1111000010010000#16 = .instruction (.addM ⟨false, true, false⟩ .never) := by decide
theorem test_decode_subA : decode 0b1110010011010000#16 = .instruction (.subA ⟨false, true, false⟩ .never) := by decide
theorem test_decode_subM : decode 0b1111010011010000#16 = .instruction (.subM ⟨false, true, false⟩ .never) := by decide
theorem test_decode_rsubA : decode 0b1110000111010000#16 = .instruction (.rsubA ⟨false, true, false⟩ .never) := by decide
theorem test_decode_rsubM : decode 0b1111000111010000#16 = .instruction (.rsubM ⟨false, true, false⟩ .never) := by decide
theorem test_decode_andA : decode 0b1110000000010000#16 = .instruction (.andA ⟨false, true, false⟩ .never) := by decide
theorem test_decode_andM : decode 0b1111000000010000#16 = .instruction (.andM ⟨false, true, false⟩ .never) := by decide
theorem test_decode_orA : decode 0b1110010101010000#16 = .instruction (.orA ⟨false, true, false⟩ .never) := by decide
theorem test_decode_orM : decode 0b1111010101010000#16 = .instruction (.orM ⟨false, true, false⟩ .never) := by decide

/-- The eight destinations of `D+1` (`spec/95_test_vectors.md` 4.2). -/
theorem test_decode_destinations :
    [0xE7C0#16, 0xE7C8#16, 0xE7D0#16, 0xE7D8#16, 0xE7E0#16, 0xE7E8#16, 0xE7F0#16, 0xE7F8#16].map decode =
    [⟨false, false, false⟩, ⟨false, false, true⟩, ⟨false, true, false⟩, ⟨false, true, true⟩, ⟨true, false, false⟩, ⟨true, false, true⟩,
      ⟨true, true, false⟩, ⟨true, true, true⟩].map fun d => Decoded.instruction (.incD d .never) := by decide

/-- The eight jumps of `D` (`spec/95_test_vectors.md` 4.1). -/
theorem test_decode_jumps :
    [0xE300#16, 0xE301#16, 0xE302#16, 0xE303#16, 0xE304#16, 0xE305#16, 0xE306#16, 0xE307#16].map decode =
    [.never, .jgt, .jeq, .jge, .jlt, .jne, .jle, .jmp].map fun j => Decoded.instruction (.passD ⟨false, false, false⟩ j) := by decide

/-- E1, E2: bits 14 and 13 are ignored. -/
theorem test_decode_ignores_bits_14_13 :
    [0x8C10#16, 0xAC10#16, 0xCC10#16].map decode = List.replicate 3 (.instruction (.passA ⟨false, true, false⟩ .never)) := by decide

/-- E4. -/
theorem test_decode_all_ones : decode 0xFFFF#16 = .instruction (.oneReadM ⟨true, true, true⟩ .jmp) := by decide

/-- E5: illegal codes. -/
theorem test_decode_illegal :
    decode 0xE880#16 = .undecodableInstruction .regA 0b100010#6 ∧ decode 0xF880#16 = .undecodableInstruction .cell 0b100010#6 ∧
    decode 0xE040#16 = .undecodableInstruction .regA 0b000001#6 := by decide

theorem test_decodeTableWord :
    decodeTableWord 16 0x8A80 = some (.zero ⟨false, false, false⟩ .never) ∧ decodeTableWord 16 0x8880 = none := by decide

/-- The encoder gives the source's own words (R76, W2, `spec/95_test_vectors.md` 4.3). -/
theorem test_encode :
    encode (.passA ⟨false, true, false⟩ .never) = 0xEC10#16 ∧ encode (.zero ⟨false, false, false⟩ .jmp) = 0xEA87#16 ∧
    encode (.decM ⟨true, false, true⟩ .never) = 0xFCA8#16 ∧ encode (.atV 5#16) = 0x0005#16 := by decide

/-! ### Running one word -/

/-- A state with the given registers and cells, for a data store of the given capacity. -/
def stateWith (a d pc : Word) (data : Memory) (capacity : Nat := 32768) : State :=
  { State.construct capacity with regA := a, regD := d, pc := pc, data := data }

/-- The state after one step on the given word, if there is one. -/
def stepOn (w : Word) (s : State) : Option State :=
  match step (s.withFetchWord 16 w.toNat) with
  | .next t => some t
  | .fault _ => none
  | .refused _ => none

/-- The registers after one step. -/
def regsAfter (w : Word) (s : State) : Option (Word × Word × Word) := (stepOn w s).map fun t => (t.regA, t.regD, t.pc)

/-- A data cell after one step. -/
def cellAfter (w : Word) (s : State) (i : Nat) : Option Word := (stepOn w s).map fun t => Memory.read t.data i

/-- The fault of one step, as the record of R141. -/
def faultOn (w : Word) (s : State) : Option (Nat × Word × Option Word × Nat) :=
  match step (s.withFetchWord 16 w.toNat) with
  | .fault r => some (r.code, r.pc, r.word, r.detail)
  | .next _ => none
  | .refused _ => none

/-- The start of `spec/95_test_vectors.md` 2.1. -/
def start : State := stateWith 0x0003 0x0011 0 [(3, 0x0007)]

/-! #### One case for each compute code and operand source (`spec/95_test_vectors.md` 2.1) -/

theorem test_exec_zero : regsAfter 0xEA90#16 start = some (0x0003#16, 0x0000#16, 1#16) := by decide
theorem test_exec_zeroReadM : regsAfter 0xFA90#16 start = some (0x0003#16, 0x0000#16, 1#16) := by decide
theorem test_exec_one : regsAfter 0xEFD0#16 start = some (0x0003#16, 0x0001#16, 1#16) := by decide
theorem test_exec_oneReadM : regsAfter 0xFFD0#16 start = some (0x0003#16, 0x0001#16, 1#16) := by decide
theorem test_exec_negOne : regsAfter 0xEE90#16 start = some (0x0003#16, 0xFFFF#16, 1#16) := by decide
theorem test_exec_negOneReadM : regsAfter 0xFE90#16 start = some (0x0003#16, 0xFFFF#16, 1#16) := by decide
theorem test_exec_passD : regsAfter 0xE310#16 start = some (0x0003#16, 0x0011#16, 1#16) := by decide
theorem test_exec_passDReadM : regsAfter 0xF310#16 start = some (0x0003#16, 0x0011#16, 1#16) := by decide
theorem test_exec_passA : regsAfter 0xEC10#16 start = some (0x0003#16, 0x0003#16, 1#16) := by decide
theorem test_exec_passM : regsAfter 0xFC10#16 start = some (0x0003#16, 0x0007#16, 1#16) := by decide
theorem test_exec_notD : regsAfter 0xE350#16 start = some (0x0003#16, 0xFFEE#16, 1#16) := by decide
theorem test_exec_notDReadM : regsAfter 0xF350#16 start = some (0x0003#16, 0xFFEE#16, 1#16) := by decide
theorem test_exec_notA : regsAfter 0xEC50#16 start = some (0x0003#16, 0xFFFC#16, 1#16) := by decide
theorem test_exec_notM : regsAfter 0xFC50#16 start = some (0x0003#16, 0xFFF8#16, 1#16) := by decide
theorem test_exec_negD : regsAfter 0xE3D0#16 start = some (0x0003#16, 0xFFEF#16, 1#16) := by decide
theorem test_exec_negDReadM : regsAfter 0xF3D0#16 start = some (0x0003#16, 0xFFEF#16, 1#16) := by decide
theorem test_exec_negA : regsAfter 0xECD0#16 start = some (0x0003#16, 0xFFFD#16, 1#16) := by decide
theorem test_exec_negM : regsAfter 0xFCD0#16 start = some (0x0003#16, 0xFFF9#16, 1#16) := by decide
theorem test_exec_incD : regsAfter 0xE7D0#16 start = some (0x0003#16, 0x0012#16, 1#16) := by decide
theorem test_exec_incDReadM : regsAfter 0xF7D0#16 start = some (0x0003#16, 0x0012#16, 1#16) := by decide
theorem test_exec_incA : regsAfter 0xEDD0#16 start = some (0x0003#16, 0x0004#16, 1#16) := by decide
theorem test_exec_incM : regsAfter 0xFDD0#16 start = some (0x0003#16, 0x0008#16, 1#16) := by decide
theorem test_exec_decD : regsAfter 0xE390#16 start = some (0x0003#16, 0x0010#16, 1#16) := by decide
theorem test_exec_decDReadM : regsAfter 0xF390#16 start = some (0x0003#16, 0x0010#16, 1#16) := by decide
theorem test_exec_decA : regsAfter 0xEC90#16 start = some (0x0003#16, 0x0002#16, 1#16) := by decide
theorem test_exec_decM : regsAfter 0xFC90#16 start = some (0x0003#16, 0x0006#16, 1#16) := by decide
theorem test_exec_addA : regsAfter 0xE090#16 start = some (0x0003#16, 0x0014#16, 1#16) := by decide
theorem test_exec_addM : regsAfter 0xF090#16 start = some (0x0003#16, 0x0018#16, 1#16) := by decide
theorem test_exec_subA : regsAfter 0xE4D0#16 start = some (0x0003#16, 0x000E#16, 1#16) := by decide
theorem test_exec_subM : regsAfter 0xF4D0#16 start = some (0x0003#16, 0x000A#16, 1#16) := by decide
theorem test_exec_rsubA : regsAfter 0xE1D0#16 start = some (0x0003#16, 0xFFF2#16, 1#16) := by decide
theorem test_exec_rsubM : regsAfter 0xF1D0#16 start = some (0x0003#16, 0xFFF6#16, 1#16) := by decide
theorem test_exec_andA : regsAfter 0xE010#16 start = some (0x0003#16, 0x0001#16, 1#16) := by decide
theorem test_exec_andM : regsAfter 0xF010#16 start = some (0x0003#16, 0x0001#16, 1#16) := by decide
theorem test_exec_orA : regsAfter 0xE550#16 start = some (0x0003#16, 0x0013#16, 1#16) := by decide
theorem test_exec_orM : regsAfter 0xF550#16 start = some (0x0003#16, 0x0017#16, 1#16) := by decide

/-! #### Corner values (`spec/95_test_vectors.md` 2.2) -/

theorem test_corner_zero : (stepOn 0xEA90#16 (stateWith 0xFFFF 0xFFFF 0 [])).map (fun t => (t.regD, t.regD.toInt)) = some (0x0000#16, 0) := by decide
theorem test_corner_one : (stepOn 0xEFD0#16 (stateWith 0x0000 0x0000 0 [])).map (fun t => (t.regD, t.regD.toInt)) = some (0x0001#16, 1) := by decide
theorem test_corner_negOne : (stepOn 0xEE90#16 (stateWith 0x0000 0x0000 0 [])).map (fun t => (t.regD, t.regD.toInt)) = some (0xFFFF#16, -1) := by decide
theorem test_corner_passD : (stepOn 0xE310#16 (stateWith 0x0000 0x8000 0 [])).map (fun t => (t.regD, t.regD.toInt)) = some (0x8000#16, -32768) := by decide
theorem test_corner_passA : (stepOn 0xEC10#16 (stateWith 0x7FFF 0x0000 0 [])).map (fun t => (t.regD, t.regD.toInt)) = some (0x7FFF#16, 32767) := by decide
theorem test_corner_notD : (stepOn 0xE350#16 (stateWith 0x0000 0x5555 0 [])).map (fun t => (t.regD, t.regD.toInt)) = some (0xAAAA#16, -21846) := by decide
theorem test_corner_notA : (stepOn 0xEC50#16 (stateWith 0x8000 0x0000 0 [])).map (fun t => (t.regD, t.regD.toInt)) = some (0x7FFF#16, 32767) := by decide
theorem test_corner_negD : (stepOn 0xE3D0#16 (stateWith 0x0000 0x8000 0 [])).map (fun t => (t.regD, t.regD.toInt)) = some (0x8000#16, -32768) := by decide
theorem test_corner_negM : (stepOn 0xFCD0#16 (stateWith 0x0010 0x0000 0 (Memory.write [] 16 0x7FFF))).map (fun t => (t.regD, t.regD.toInt)) = some (0x8001#16, -32767) := by decide
theorem test_corner_incD : (stepOn 0xE7D0#16 (stateWith 0x0000 0x7FFF 0 [])).map (fun t => (t.regD, t.regD.toInt)) = some (0x8000#16, -32768) := by decide
theorem test_corner_incM : (stepOn 0xFDD0#16 (stateWith 0x0010 0x0000 0 (Memory.write [] 16 0xFFFF))).map (fun t => (t.regD, t.regD.toInt)) = some (0x0000#16, 0) := by decide
theorem test_corner_decD : (stepOn 0xE390#16 (stateWith 0x0000 0x8000 0 [])).map (fun t => (t.regD, t.regD.toInt)) = some (0x7FFF#16, 32767) := by decide
theorem test_corner_decA : (stepOn 0xEC90#16 (stateWith 0x0000 0x0000 0 [])).map (fun t => (t.regD, t.regD.toInt)) = some (0xFFFF#16, -1) := by decide
theorem test_corner_addA : (stepOn 0xE090#16 (stateWith 0x8000 0x8000 0 [])).map (fun t => (t.regD, t.regD.toInt)) = some (0x0000#16, 0) := by decide
theorem test_corner_addM : (stepOn 0xF090#16 (stateWith 0x0010 0xFFFF 0 (Memory.write [] 16 0xFFFF))).map (fun t => (t.regD, t.regD.toInt)) = some (0xFFFE#16, -2) := by decide
theorem test_corner_subA : (stepOn 0xE4D0#16 (stateWith 0x0001 0x8000 0 [])).map (fun t => (t.regD, t.regD.toInt)) = some (0x7FFF#16, 32767) := by decide
theorem test_corner_subM : (stepOn 0xF4D0#16 (stateWith 0x0010 0x0003 0 (Memory.write [] 16 0x0005))).map (fun t => (t.regD, t.regD.toInt)) = some (0xFFFE#16, -2) := by decide
theorem test_corner_rsubA : (stepOn 0xE1D0#16 (stateWith 0x0000 0x0001 0 [])).map (fun t => (t.regD, t.regD.toInt)) = some (0xFFFF#16, -1) := by decide
theorem test_corner_rsubM : (stepOn 0xF1D0#16 (stateWith 0x0010 0x8000 0 (Memory.write [] 16 0x7FFF))).map (fun t => (t.regD, t.regD.toInt)) = some (0xFFFF#16, -1) := by decide
theorem test_corner_andA : (stepOn 0xE010#16 (stateWith 0x0FF0 0xF0F0 0 [])).map (fun t => (t.regD, t.regD.toInt)) = some (0x00F0#16, 240) := by decide
theorem test_corner_orM : (stepOn 0xF550#16 (stateWith 0x0010 0xF0F0 0 (Memory.write [] 16 0x0FF0))).map (fun t => (t.regD, t.regD.toInt)) = some (0xFFF0#16, -16) := by decide

/-! #### Address instructions (`spec/95_test_vectors.md` 3) -/

theorem test_atV_AD1 : regsAfter 0x1234#16 (stateWith 0 0xBEEF 0 []) = some (0x1234#16, 0xBEEF#16, 1#16) := by decide
theorem test_atV_AD5_wraps : regsAfter 0x0005#16 (stateWith 0 0 32767 []) = some (5#16, 0#16, 0#16) := by decide

/-! #### Read, modify, write (2.3) -/

theorem test_RMW1 : cellAfter 0xFDC8#16 (stateWith 0x0010 0 0 [(16, 0x7FFF)]) 16 = some 0x8000#16 := by decide
theorem test_RMW2 : regsAfter 0xFCA8#16 (stateWith 0x0010 0 0 [(16, 5)]) = some (4#16, 0#16, 1#16) ∧
    cellAfter 0xFCA8#16 (stateWith 0x0010 0 0 [(16, 5)]) 16 = some 4#16 ∧
    cellAfter 0xFCA8#16 (stateWith 0x0010 0 0 [(16, 5)]) 4 = some 0#16 := by decide
theorem test_RMW3_drops_bit_15 : cellAfter 0xFCA8#16 (stateWith 0x8010 0 0 [(16, 5)]) 16 = some 4#16 := by decide
theorem test_RMW4_capacity : cellAfter 0xE308#16 (stateWith 0xBFFF 1 0 [] 16384) 16383 = some 1#16 := by decide

/-! #### Jumps and destinations (4.1 to 4.3) -/

/-- The 24 combinations: for each jump code, `PC` for a result of -1, 0 and 1. -/
theorem test_jump_combinations :
    [0xE300#16, 0xE301#16, 0xE302#16, 0xE303#16, 0xE304#16, 0xE305#16, 0xE306#16, 0xE307#16].map (fun w =>
      [0xFFFF#16, 0#16, 1#16].map fun d => (stepOn w (stateWith 100 d 10 [])).map fun t => t.pc.toNat) =
    [[some 11, some 11, some 11], [some 11, some 11, some 100], [some 11, some 100, some 11], [some 11, some 100, some 100],
     [some 100, some 11, some 11], [some 100, some 11, some 100], [some 100, some 100, some 11], [some 100, some 100, some 100]] := by
  decide

/-- The eight destinations: `A`, `D`, the cell at the old `A`, the cell at the new `A`. -/
theorem test_destinations :
    [0xE7C0#16, 0xE7C8#16, 0xE7D0#16, 0xE7D8#16, 0xE7E0#16, 0xE7E8#16, 0xE7F0#16, 0xE7F8#16].map (fun w =>
      (stepOn w (stateWith 32 5 0 [])).map fun t =>
        (t.regA.toNat, t.regD.toNat, (Memory.read t.data 32).toNat, (Memory.read t.data 6).toNat)) =
    [some (32, 5, 0, 0), some (32, 5, 6, 0), some (32, 6, 0, 0), some (32, 6, 6, 0), some (6, 5, 0, 0), some (6, 5, 6, 0),
     some (6, 6, 0, 0), some (6, 6, 6, 0)] := by decide

theorem test_J1_target_is_new_A : regsAfter 0xE321#16 (stateWith 8 12 0 []) = some (12#16, 12#16, 12#16) := by decide
theorem test_J3_target_masked : regsAfter 0xEA87#16 (stateWith 0x8005 0 0 []) = some (0x8005#16, 0#16, 5#16) := by decide
theorem test_J5_wraps : regsAfter 0xE301#16 (stateWith 100 0 32767 []) = some (100#16, 0#16, 0#16) := by decide
theorem test_J7_reads_the_result : regsAfter 0xE7C4#16 (stateWith 3 0x7FFF 0 []) = some (3#16, 0x7FFF#16, 3#16) := by decide
theorem test_E4_all_destinations_and_jump : regsAfter 0xFFFF#16 (stateWith 0x0020 0 0 []) = some (1#16, 1#16, 1#16) ∧
    cellAfter 0xFFFF#16 (stateWith 0x0020 0 0 []) 32 = some 1#16 := by decide

/-! #### Faults (5) -/

theorem test_F1 : faultOn 0xE880#16 (stateWith 3 0 1 []) = some (1, 1#16, some 0xE880#16, 0b100010) := by decide
theorem test_F3 : faultOn 0xF880#16 (stateWith 0x7FFF 0 0 [] 16384) = some (3, 0#16, some 0xF880#16, 32767) := by decide
theorem test_F4 : faultOn 0xE888#16 (stateWith 0x7FFF 0 0 [] 16384) = some (1, 0#16, some 0xE888#16, 0b100010) := by decide
theorem test_F5 : faultOn 0xFDD8#16 (stateWith 0x4000 7 0 [] 16384) = some (3, 0#16, some 0xFDD8#16, 16384) := by decide
theorem test_F6 : regsAfter 0xFC10#16 (stateWith 0x3FFF 0 0 [(16383, 9)] 16384) = some (0x3FFF#16, 9#16, 1#16) := by decide
theorem test_F7 : regsAfter 0xE310#16 (stateWith 0x4000 1 0 [] 16384) = some (0x4000#16, 1#16, 1#16) := by decide
theorem test_F8 : faultOn 0xFA80#16 (stateWith 0x4000 0 0 [] 16384) = some (3, 0#16, some 0xFA80#16, 16384) := by decide
theorem test_W4_write_out_of_range :
    faultOn 0xE308#16 (stateWith 0x7FFF 0 1 [] 16384) = some (4, 1#16, some 0xE308#16, 32767) := by decide

/-- F1 and F9 as the host sees them: the latch is set, nothing else changes, and the next step returns the same fault. -/
theorem test_F9_latched :
    hostStep ((stateWith 3 0 1 []).withFetchWord 16 0xE880) =
      (latchFault (.undecodableInstruction 1 0xE880 0b100010) ((stateWith 3 0 1 []).withFetchWord 16 0xE880),
        .fault (.undecodableInstruction 1 0xE880 0b100010)) ∧
    hostStep (latchFault (.undecodableInstruction 1 0xE880 0b100010) (stateWith 3 0 1 [])) =
      (latchFault (.undecodableInstruction 1 0xE880 0b100010) (stateWith 3 0 1 []), .fault (.undecodableInstruction 1 0xE880 0b100010)) := by
  decide

/-! #### The host (R170 to R173, W9) and the screen (7) -/

theorem test_reset_runs_address_zero : (match step State.reset with | .next t => some (t.regA, t.pc) | _ => none) = some (0#16, 1#16) := by
  decide

theorem test_load_round_trip :
    (hostLoad [0x0005, 0xEC10] State.reset).1.prog = [(0, 0x0005), (1, 0xEC10)] ∧
    (hostLoad [0x0005, 0xEC10] State.reset).1.len = 2 ∧ (hostLoad [0x0005, 0xEC10] State.reset).2 = .ok := by decide

/-- R29, R172: a load of two words records `LEN` 2, which the host reads. -/
theorem test_host_reads_the_length :
    (serve 16384 .readLen (serve 16384 (.load [0x0005, 0xEC10]) State.reset).1).2 = .length 2 := by decide
theorem test_load_refused_after_a_step :
    (hostLoad [0x0005] (hostStep State.reset).1).2 = .loadRefused := by decide

/-- S3, S4, S5, S6, S7 at a window base of 16384. -/
theorem test_pixels :
    pixel 16384 [(16384, 0x8000)] 0 15 = true ∧ pixel 16384 [(16384, 0x8000)] 0 0 = false ∧
    pixel 16384 [(16385, 1)] 0 16 = true ∧ pixel 16384 [(16415, 0x8000)] 0 511 = true ∧
    pixel 16384 [(16416, 2)] 1 1 = true ∧ pixel 16384 [(24575, 0x8000)] 255 511 = true := by decide

/-! ### Witnesses: states and operands that meet the hypotheses of the statements -/

/-- `A` at the top of the data store, a cell listed there. -/
def top : State := stateWith 0x7FFF 5 32767 [(32767, 9)]

/-- `A` just past a smaller data store. -/
def past : State := stateWith 0x4000 5 0 [] 16384

theorem top_in_range : top.Inv ∧ top.fault = none ∧ ∀ a d, AccessesInRange a d top :=
  ⟨by decide, rfl, fun _ _ _ => by decide⟩

theorem witness_DecodeOfEncodeIsTheInstruction : (Instr.atV 0x7FFF#16).WellFormed ∧ (Instr.orM ⟨true, true, true⟩ .jmp).WellFormed := by
  decide
theorem witness_EncodeOfDecodeIsTheCanonicalWord : ∃ i, decode 0x8C10#16 = .instruction i := ⟨_, rfl⟩
theorem witness_AddressLiteralIsTheUnsignedWord : (0x7FFF#16 : Word).msb = false := by decide
theorem witness_ComputeWordsIgnoreBits14And13 :
    (0x8C10#16 : Word).msb = true ∧ (0xEC10#16 : Word).msb = true ∧ ∀ k < 13, (0x8C10#16 : Word).getLsbD k = (0xEC10#16 : Word).getLsbD k := by
  decide
theorem witness_StepRunsTheDecodedInstruction :
    top.fault = none ∧ top.pc.toNat < 32768 ∧ decode (Memory.read top.prog top.pc.toNat) = .instruction (.atV 0) := by decide
theorem witness_PlacedWordIsTheNextInstruction :
    top.Inv ∧ decode 0xFCA8#16 = .instruction (.decM ⟨true, false, true⟩ .never) := by decide
theorem witness_WorkedExamplesOfTheSource :
    (∃ s : State, s.fault = none ∧ s.pc = 0#16 ∧ Memory.read s.prog 0 = 0x0005#16) ∧
    (∃ s : State, s.fault = none ∧ s.regA = 5#16 ∧ s.regD = 0#16 ∧ s.pc = 1#16 ∧ Memory.read s.prog 1 = 0xEC10#16) :=
  ⟨⟨{ State.reset with prog := [(0, 0x0005)] }, by decide⟩,
   ⟨{ State.reset with prog := [(1, 0xEC10)], regA := 5, pc := 1 }, by decide⟩⟩
theorem witness_IllegalCodeStopsTheStep :
    (∃ s : State, s.fault = none ∧ s.pc.toNat < 32768 ∧
      decode (Memory.read s.prog s.pc.toNat) = .undecodableInstruction .cell 0b100010#6 ∧ s.dataWords ≤ effectiveAddress s) ∧
    (∃ s : State, s.fault = none ∧ s.pc.toNat < 32768 ∧
      decode (Memory.read s.prog s.pc.toNat) = .undecodableInstruction .cell 0b100010#6 ∧ ¬ s.dataWords ≤ effectiveAddress s) :=
  ⟨⟨{ past with prog := [(0, 0xF880)] }, by decide⟩, ⟨{ past with prog := [(0, 0xF880)], regA := 0x3FFF }, by decide⟩⟩
theorem witness_OutOfRangeAccessStopsACompute :
    past.dataWords ≤ effectiveAddress past ∧ (⟨false, false, true⟩ : Dest).m = true ∧ (⟨true, true, false⟩ : Dest).m = false := by decide
theorem witness_ComputeRaisesOnlyItsThreeFaults :
    (0xFCA8#16 : Word).msb = true ∧ top.regA.toNat % 32768 = ({ top with regA := 0xFFFF } : State).regA.toNat % 32768 ∧
    ∃ t, executeWord 0xFCA8#16 top = .next t := ⟨by decide, by decide, _, rfl⟩
theorem witness_FullCapacityRunsEveryLegalWord :
    (top.Inv ∧ top.fault = none ∧ top.dataWords = 32768 ∧ decode (Memory.read top.prog top.pc.toNat) = .instruction (.atV 0)) ∧
    (∃ s : State, s.Inv ∧ s.fault = none ∧ s.dataWords = 32768 ∧ ∃ r, step s = .fault r) :=
  ⟨by decide, { State.reset with prog := [(0, 0xE880)] }, by decide, rfl, rfl, _, rfl⟩
theorem witness_LatchedFaultStopsTheEngine : (latchFault (.outOfRangeFetch 0) top).fault = some (.outOfRangeFetch 0) := rfl
theorem witness_FaultingStepIsPrecise :
    (∃ (s : State) (r : Fault), s.fault = none ∧ step s = .fault r ∧ r.code = 2 ∧ 32768 ≤ s.pc.toNat) ∧
    (∃ (s : State) (r : Fault), s.fault = none ∧ step s = .fault r ∧ r.code = 4 ∧ s.pc.toNat < 32768) :=
  ⟨⟨{ State.reset with pc := 0x8000 }, _, rfl, rfl, rfl, by decide⟩,
   ⟨{ past with prog := [(0, 0xE308)] }, _, rfl, rfl, rfl, by decide⟩⟩
theorem witness_AddressLoadCompletes : (Instr.atV 0x7FFF#16).WellFormed := by decide
theorem witness_ConstantInstructionsComplete : top.Inv ∧ AccessesInRange .regA ⟨true, true, true⟩ top ∧ AccessesInRange .cell ⟨true, true, true⟩ top :=
  ⟨top_in_range.1, top_in_range.2.2 _ _, top_in_range.2.2 _ _⟩
theorem witness_MoveInstructionsComplete : top.Inv ∧ AccessesInRange .regA ⟨true, true, true⟩ top ∧ AccessesInRange .cell ⟨true, true, true⟩ top :=
  ⟨top_in_range.1, top_in_range.2.2 _ _, top_in_range.2.2 _ _⟩
theorem witness_ComplementInstructionsComplete : top.Inv ∧ AccessesInRange .regA ⟨true, true, true⟩ top ∧ AccessesInRange .cell ⟨true, true, true⟩ top :=
  ⟨top_in_range.1, top_in_range.2.2 _ _, top_in_range.2.2 _ _⟩
theorem witness_NegationInstructionsComplete : top.Inv ∧ AccessesInRange .regA ⟨true, true, true⟩ top ∧ AccessesInRange .cell ⟨true, true, true⟩ top :=
  ⟨top_in_range.1, top_in_range.2.2 _ _, top_in_range.2.2 _ _⟩
theorem witness_IncrementAndDecrementComplete : top.Inv ∧ AccessesInRange .regA ⟨true, true, true⟩ top ∧ AccessesInRange .cell ⟨true, true, true⟩ top :=
  ⟨top_in_range.1, top_in_range.2.2 _ _, top_in_range.2.2 _ _⟩
theorem witness_AdditionAndSubtractionComplete : top.Inv ∧ AccessesInRange .regA ⟨true, true, true⟩ top ∧ AccessesInRange .cell ⟨true, true, true⟩ top :=
  ⟨top_in_range.1, top_in_range.2.2 _ _, top_in_range.2.2 _ _⟩
theorem witness_LogicInstructionsComplete : top.Inv ∧ AccessesInRange .regA ⟨true, true, true⟩ top ∧ AccessesInRange .cell ⟨true, true, true⟩ top :=
  ⟨top_in_range.1, top_in_range.2.2 _ _, top_in_range.2.2 _ _⟩
theorem witness_OperandsAreDAndAOrTheCell :
    (⟨false, true, false⟩ : Dest).d = true ∧ (∃ t, exec (.incA ⟨false, true, false⟩ .never) top = .next t) ∧
    (∃ t, exec (.incM ⟨false, true, false⟩ .never) top = .next t) := ⟨rfl, ⟨_, rfl⟩, ⟨_, rfl⟩⟩
theorem witness_OneResultForDestinationsAndJump :
    top.Inv ∧ (∃ t, exec (Instr.compute .incY .cell ⟨true, true, true⟩ .jgt) top = .next t) ∧
    (∃ t, exec (Instr.compute .zero .cell ⟨false, false, false⟩ .jgt) top = .next t) := ⟨by decide, ⟨_, rfl⟩, ⟨_, rfl⟩⟩
theorem witness_MemoryWriteLandsAtTheOldA :
    top.Inv ∧ ∃ t, exec (Instr.compute .decY .cell ⟨true, false, true⟩ .jne) top = .next t := ⟨by decide, _, rfl⟩
theorem witness_JumpTargetIsTheNewA :
    top.Inv ∧ (AccessesInRange .cell ⟨true, false, true⟩ top ∧ (alu .decY top.regD (operandValue .cell top)).toInt ≠ 0) ∧
    (AccessesInRange .regA ⟨false, false, false⟩ top ∧ (alu .zero top.regD (operandValue .regA top)).toInt = 0) ∧
    effectiveAddress top < top.dataWords ∧ Memory.read top.data (effectiveAddress top) ≠ 1#16 := by decide
theorem witness_IndexDropsOnlyBit15 : (0x7FFF#16 : Word).msb = false := by decide
theorem witness_WindowWritesAreOrdinary :
    top.Inv ∧ 24576 + 8192 ≤ top.dataWords ∧ 24576 ≤ effectiveAddress top ∧ effectiveAddress top < 24576 + 8192 ∧
    (⟨true, false, true⟩ : Dest).m = true := by decide
theorem witness_StoresThatReadAlikeAreEqual : Memory.wf [(0, 1#16), (32767, 2#16)] = true := by decide
theorem witness_ConstructedEngineMeetsTheInvariant : 1 ≤ 1 ∧ 1 ≤ 32768 ∧ (State.construct 1).Inv := by decide
theorem witness_StepKeepsTheInvariant : top.Inv ∧ ∃ t, step top = .next t := ⟨by decide, _, rfl⟩
theorem witness_HostRequestsKeepTheInvariant : top.Inv ∧ past.Inv := by decide
theorem witness_OnlyALoadBeforeExecutionWritesTheProgram :
    (∃ t, exec (.passD ⟨false, false, true⟩ .never) top = .next t) ∧
    (serve 16384 (.load [0x0005]) State.reset).1.prog ≠ State.reset.prog ∧ (∃ t, step top = .next t) ∧
    (closeLoad top).loadOpen = false := ⟨⟨_, rfl⟩, by decide, ⟨_, rfl⟩, rfl⟩
theorem witness_NoStepReadsTheLength :
    (∃ t, hostLoad [0x0005] State.reset = (t, .ok)) ∧ (∃ t, step top = .next t) ∧
    (∃ r, step { State.reset with prog := [(0, 0xE880)] } = .fault r) := ⟨⟨_, rfl⟩, ⟨_, rfl⟩, ⟨_, rfl⟩⟩
theorem witness_StateChangesOnlyAsTheWordEnables :
    ∃ s t : State, s.Inv ∧ step s = .next t ∧ t.regD ≠ s.regD ∧ t.regA ≠ s.regA ∧ t.regA.msb = true ∧ s.regA.msb = false ∧
      Memory.read t.data (effectiveAddress s) ≠ Memory.read s.data (effectiveAddress s) :=
  ⟨{ State.reset with prog := [(0, 0xEEB8)] }, _, by decide, rfl, by decide, by decide, by decide, by decide, by decide⟩
theorem witness_PastTheProgramRunsAddressZero :
    top.fault = none ∧ top.pc.toNat < 32768 ∧ Memory.within top.len top.prog = true ∧ top.len ≤ top.pc.toNat := by decide
theorem witness_EntryNeedsNothingInitialised : (∃ t, hostLoad [0x0005] (State.construct 1) = (t, .ok)) ∧ 32767 < 32768 :=
  ⟨⟨_, rfl⟩, by decide⟩
theorem witness_ExecutionEntersAtIndexZero : ∃ t, hostLoad [0xFFFF, 0x0005] State.reset = (t, .ok) := ⟨_, rfl⟩
theorem witness_LoadCopiesTheWordsOrChangesNothing :
    ([] : List Word).length ≤ 32768 ∧ (List.replicate 32768 (5 : Word)).length ≤ 32768 ∧
    32767 < (List.replicate 32768 (5 : Word)).length ∧
    32768 < (List.replicate 32769 (5 : Word)).length := by
  simp only [List.length_replicate]; decide
theorem witness_LoadIsAcceptedOnceBeforeTheFirstStep : ∃ t, hostLoad [0x0005] State.reset = (t, .ok) := ⟨_, rfl⟩
theorem witness_HostRunAgreesWithTheSteps :
    (∃ t, Host.Core.run Sys2Proof.core 2 State.reset = .next t) ∧
    (∃ r, Host.Core.run Sys2Proof.core 2 ({ State.reset with prog := [(1, 0xE880)] } : State) = .fault r) := ⟨⟨_, rfl⟩, ⟨_, rfl⟩⟩
theorem witness_HostReadsButDoesNotWrite :
    16383 < past.dataWords ∧ past.dataWords ≤ 16384 ∧ Request.load [0x0005] ≠ .step ∧ ∀ n, Request.load [0x0005] ≠ .run n :=
  ⟨by decide, by decide, Request.noConfusion, fun _ => Request.noConfusion⟩
theorem witness_SamplerIsAReadOnlyProjectionOfItsWindow :
    24576 + 8192 ≤ State.reset.dataWords ∧ ∀ i, 24576 ≤ i → i < 24576 + 8192 →
      Memory.read ({ State.reset with data := [(24575, 0xFFFF)] } : State).data i = Memory.read State.reset.data i := by
  refine ⟨by decide, fun i h _ => ?_⟩
  show (if 24575 = i then _ else _) = _
  rw [if_neg (by omega)]
  rfl
theorem witness_EachWindowBitIsItsPixel :
    ∃ b, sample 24576 State.reset = .bitmap b ∧ 8191 < 8192 ∧ 15 < 16 := ⟨_, if_pos (by decide), by decide, by decide⟩

end Sys2Proof.Tests
end

section
/-! PROOFS. Encoding: the literal of an address word (`spec/30_encoding.md` R65). -/

namespace Sys2Proof.Machine

theorem toNat_lt_of_msb_false {w : Word} (h : w.msb = false) : w.toNat < 32768 :=
  mask15_of_msb_false h ▸ mask15_lt w

/-- An address literal with bit 15 clear passes through the mask of `@v` unchanged. -/
theorem ofNat_mask15_of_msb_false {w : Word} (h : w.msb = false) : BitVec.ofNat 16 (mask15 w) = w := by
  rw [mask15_of_msb_false h, BitVec.ofNat_toNat, BitVec.setWidth_eq]

/-- A word with bit 15 clear is its own low 15 bits, zero-extended, bit by bit. -/
theorem getLsbD_of_msb_false {w : Word} (h : w.msb = false) {k : Nat} (hk : k < 16) :
    w.getLsbD k = (decide (k < 15) && w.getLsbD k) := by
  obtain hk15 | rfl : k < 15 ∨ k = 15 := by omega
  · simp [hk15]
  · rw [BitVec.msb_eq_getLsbD_last] at h
    simpa using h

/-- Settles O4: the word decodes to `@w`, and the mask of `@v` changes no literal below 32768. -/
theorem addressLiteralIsTheUnsignedWord : Obligations.AddressLiteralIsTheUnsignedWord := by
  intro w h
  refine ⟨w, decode_address h, rfl, toNat_lt_of_msb_false h, BitVec.toInt_eq_toNat_of_msb h, fun s => ?_⟩
  refine ⟨advance (setA w s), ?_, rfl, fun k hk => ?_⟩
  · rw [exec_atV, ofNat_mask15_of_msb_false h]
  · rw [advance_regA, setA_regA]
    exact getLsbD_of_msb_false h hk

end Sys2Proof.Machine
end

section
/-! PROOFS. The address instruction and the source's two worked steps (`spec/40_address_load.md` R82, R84; `spec/41_compute.md` R94). -/

namespace Sys2Proof.Machine

/-- The address instruction as one record update: `A` and `PC` are written, from the literal and the old `PC` alone (R80 to R82). -/
theorem exec_atV_eq_update (v : Word) (s : State) :
    exec (.atV v) s = .next { s with regA := BitVec.ofNat 16 (mask15 v), pc := BitVec.ofNat 16 (pcAfter s.pc) } := rfl

/-- Settles O18: the update names no field but `A` and `PC`, and its two values depend on neither the data store nor the old `A`. -/
theorem addressLoadWritesOnlyAAndPc : Obligations.AddressLoadWritesOnlyAAndPc := by
  intro v s
  exact ⟨_, exec_atV_eq_update v s, rfl, fun m => exec_atV_eq_update v { s with data := m },
    fun a => exec_atV_eq_update v { s with regA := a }⟩

/-- Without a latched fault, a step at `PC` in range executes the instruction the fetched word decodes to (R175). -/
theorem step_of_fetch {s : State} {p w : Word} {i : Instr} (hf : s.fault = none) (hpc : s.pc = p) (hp : p.toNat < 32768)
    (hw : Memory.read s.prog p.toNat = w) (hd : decode w = .instruction i) : step s = exec i (closeLoad s) := by
  subst hpc hw
  rw [step_of_no_fault hf, fetchDecodeExecute_of_lt hp, instructionWord, executeWord_instruction hd]

theorem advance_pc_of_pc {s : State} {p : Word} (h : s.pc = p) : (advance s).pc = BitVec.ofNat 16 (pcAfter p) := by
  rw [advance, setPc_pc, h]

/-- A `D=A` without a jump completes in every state: it has no memory access that could be out of range. -/
theorem exec_passA_toD (s : State) :
    exec (.passA ⟨false, true, false⟩ .never) s = .next (advance (routed ⟨false, true, false⟩ s.regA s)) := by
  have hr : AccessesInRange .regA ⟨false, true, false⟩ s := by simp [AccessesInRange]
  calc exec (Instr.compute .y .regA ⟨false, true, false⟩ .never) s
      = compute .y .regA ⟨false, true, false⟩ .never s := exec_compute ..
    _ = .next (jumpOrAdvance .never s.regA (routed ⟨false, true, false⟩ s.regA s)) := compute_in_range hr .never
    _ = .next (advance (routed ⟨false, true, false⟩ s.regA s)) := by rw [jumpOrAdvance_of_not_taken rfl]

/-- Settles O9: each step executes the decoded instruction, `@5` at `PC` 0 and `D=A` at `PC` 1. -/
theorem workedExamplesOfTheSource : Obligations.WorkedExamplesOfTheSource := by
  have hAt5 : decode 0x0005#16 = .instruction (.atV 5#16) := decode_address rfl
  have hDA : decode 0xEC10#16 = .instruction (.passA ⟨false, true, false⟩ .never) := by decide
  refine ⟨fun s hf hpc hw => ?_, hDA, fun s hf hA _ hpc hw => ?_⟩
  · have hstep := step_of_fetch hf hpc (by decide) hw hAt5
    exact ⟨_, hstep.trans (exec_atV ..), rfl, rfl, advance_pc_of_pc hpc⟩
  · have hstep := step_of_fetch hf hpc (by decide) hw hDA
    refine ⟨_, hstep.trans (exec_passA_toD _), ?_, ?_, advance_pc_of_pc (by simpa using hpc)⟩
    · simpa using hA
    · simpa using hA

end Sys2Proof.Machine
end

section
/-! PROOFS. The compute instruction: what a completed one answers, its operands and its faults (`spec/41_compute.md` R87, R90, R93). -/

namespace Sys2Proof.Machine

/-! ### A completed compute instruction -/

@[simp] theorem jumpOrAdvance_regA (j : Jump) (r : Word) (s : State) : (jumpOrAdvance j r s).regA = s.regA := by
  obtain ⟨n, -, h⟩ := jumpOrAdvance_eq_setPc j r s
  rw [h, setPc_regA]
@[simp] theorem jumpOrAdvance_regD (j : Jump) (r : Word) (s : State) : (jumpOrAdvance j r s).regD = s.regD := by
  obtain ⟨n, -, h⟩ := jumpOrAdvance_eq_setPc j r s
  rw [h, setPc_regD]
@[simp] theorem jumpOrAdvance_data (j : Jump) (r : Word) (s : State) : (jumpOrAdvance j r s).data = s.data := by
  obtain ⟨n, -, h⟩ := jumpOrAdvance_eq_setPc j r s
  rw [h, setPc_data]

/-- A jump that is taken ends the step as the unconditional one does. -/
theorem jumpOrAdvance_of_jumpHolds {j : Jump} {r : Word} (h : JumpHolds j r.toInt) (s : State) :
    jumpOrAdvance j r s = jumpOrAdvance .jmp r s := by
  rw [jumpOrAdvance_of_taken ((jumpTaken_iff j r).mpr h), jumpOrAdvance_of_taken rfl]

/-- A jump that is not taken ends the step as no jump does. -/
theorem jumpOrAdvance_of_not_jumpHolds {j : Jump} {r : Word} (h : ¬ JumpHolds j r.toInt) (s : State) :
    jumpOrAdvance j r s = jumpOrAdvance .never r s := by
  have hj : jumpTaken j r = false := by rwa [← jumpTaken_iff, Bool.not_eq_true] at h
  rw [jumpOrAdvance_of_not_taken hj, jumpOrAdvance_of_not_taken rfl]

/-- A write to a canonical store stores its Word at its index and keeps every other cell. -/
theorem Memory.storedAt_write {m : Memory} (hm : Memory.wf m = true) (i : Nat) (v : Word) :
    Memory.StoredAt i v m (Memory.write m i v) :=
  ⟨by rw [Memory.read_write hm, if_pos rfl], fun k hk => by rw [Memory.read_write hm, if_neg hk]⟩

/-- A compute step that answers a next state had its accesses in range, and the state is the routed one with `PC` updated. -/
theorem compute_of_next {op : AluOp} {a : Source} {d : Dest} {j : Jump} {s t : State} (h : compute op a d j s = .next t) :
    AccessesInRange a d s ∧
      t = jumpOrAdvance j (alu op s.regD (operandValue a s)) (routed d (alu op s.regD (operandValue a s)) s) := by
  obtain ⟨hr, h'⟩ | ⟨-, -, h'⟩ | ⟨-, -, -, h'⟩ := compute_cases op a d j s <;> rw [h'] at h
  · cases h; exact ⟨hr, rfl⟩
  · cases h
  · cases h

/-- A compute step completes exactly where its accesses are in range. -/
theorem compute_completes_iff (op : AluOp) (a : Source) (d : Dest) (j : Jump) (s : State) :
    (∃ t, compute op a d j s = .next t) ↔ AccessesInRange a d s :=
  ⟨fun ⟨_, h⟩ => (compute_of_next h).1, fun h => ⟨_, compute_in_range h j⟩⟩

/-! ### One result for every destination and jump field -/

/-- Settles O28: the result is the ALU's output, which no destination or jump field enters. -/
theorem oneResultForDestinationsAndJump : Obligations.OneResultForDestinationsAndJump := by
  intro op a s hinv
  obtain ⟨-, -, -, -, -, -, hwf, -⟩ := hinv
  refine ⟨alu op s.regD (operandValue a s), fun d j t h => ?_⟩
  obtain ⟨hr, rfl⟩ := compute_of_next (exec_compute op a d j s ▸ h)
  have hexec (j' : Jump) := (exec_compute op a d j' s).trans (compute_in_range hr j')
  refine ⟨fun ha => by simp [ha], fun ha => by simp [ha], fun hd => by simp [hd], fun hd => by simp [hd], fun hm => ?_,
    fun hm => by simp [hm], _, _, hexec .jmp, hexec .never, fun hj => ?_, fun hj => ?_⟩
  · rw [jumpOrAdvance_data, routed_data, if_pos hm]
    exact Memory.storedAt_write hwf _ _
  · rw [jumpOrAdvance_of_jumpHolds hj]
  · rw [jumpOrAdvance_of_not_jumpHolds hj]

/-! ### The operands -/

/-- With the `D` destination a completed compute instruction leaves the ALU's output in `D`. -/
theorem exec_compute_regD {op : AluOp} {a : Source} {d : Dest} {j : Jump} {s t : State} (hd : d.d = true)
    (h : exec (Instr.compute op a d j) s = .next t) : t.regD = alu op s.regD (operandValue a s) := by
  obtain ⟨-, rfl⟩ := compute_of_next (exec_compute op a d j s ▸ h)
  simp [hd]

theorem operandValue_cell (s : State) : operandValue .cell s = Memory.read s.data (s.regA.toNat % 32768) := by
  rw [operandValue, effectiveAddress, mask15_eq]

/-- Settles O27: the function is the ALU at the operation, applied to `D` and the resolved operand. -/
theorem operandsAreDAndAOrTheCell : Obligations.OperandsAreDAndAOrTheCell := by
  intro op
  refine ⟨alu op, ?_, ?_, fun d j s t hd => ⟨fun h => exec_compute_regD hd h, fun h => ?_⟩⟩
  · rintro rfl x y; rfl
  · rintro rfl x y; rfl
  · rw [exec_compute_regD hd h, operandValue_cell]

/-! ### The faults of a compute word -/

/-- The operand source of a word is the cell exactly where bit 12 is set (R66). -/
theorem ofBit_bitField_eq_cell_iff (w : Word) : Source.ofBit (bitField w 12 1) = .cell ↔ w.getLsbD 12 = true := by
  simp [Source.ofBit, bitField, BitVec.eq_of_getLsbD_eq_iff]

theorem executeWord_legal {w : Word} (h : w.msb = true) {op : AluOp} (hc : AluOp.ofCode (bitField w 6 6) = some op) (s : State) :
    executeWord w s =
      compute op (.ofBit (bitField w 12 1)) (.ofBits (bitField w 3 3)) (.ofCode (bitField w 0 3)) s := by
  rw [executeWord_instruction (decode_compute h hc), exec_compute]

theorem executeWord_illegal {w : Word} (h : w.msb = true) (hc : AluOp.ofCode (bitField w 6 6) = none) (s : State) :
    executeWord w s = executeUndecodable (.ofBit (bitField w 12 1)) (bitField w 6 6) s :=
  executeWord_undecodable (decode_illegal h hc) s

/-- Everything a compute word can do: it has a legal code and completes, or it raises one of its three faults for its cause. -/
theorem executeWord_compute_cases {w : Word} (h : w.msb = true) (s : State) :
    ((AluOp.ofCode (bitField w 6 6)).isSome = true ∧
      AccessesInRange (.ofBit (bitField w 12 1)) (.ofBits (bitField w 3 3)) s ∧ ∃ t, executeWord w s = .next t) ∨
    (executeWord w s = .fault (.outOfRangeOperandRead s.pc (instructionWord s) (effectiveAddress s)) ∧
      w.getLsbD 12 = true ∧ s.dataWords ≤ effectiveAddress s) ∨
    (executeWord w s = .fault (.undecodableInstruction s.pc (instructionWord s) (bitField w 6 6)) ∧
      AluOp.ofCode (bitField w 6 6) = none) ∨
    (executeWord w s = .fault (.outOfRangeDataWrite s.pc (instructionWord s) (effectiveAddress s)) ∧
      (Dest.ofBits (bitField w 3 3)).m = true ∧ s.dataWords ≤ effectiveAddress s) := by
  cases hc : AluOp.ofCode (bitField w 6 6) with
  | none =>
    rw [executeWord_illegal h hc]
    obtain ⟨-, h'⟩ | ⟨ha, hr, h'⟩ := executeUndecodable_cases (.ofBit (bitField w 12 1)) (bitField w 6 6) s
    · exact .inr (.inr (.inl ⟨h', rfl⟩))
    · exact .inr (.inl ⟨h', (ofBit_bitField_eq_cell_iff w).mp ha, hr⟩)
  | some op =>
    rw [executeWord_legal h hc]
    obtain ⟨hr, h'⟩ | ⟨ha, hr, h'⟩ | ⟨-, hm, hr, h'⟩ :=
      compute_cases op (.ofBit (bitField w 12 1)) (.ofBits (bitField w 3 3)) (.ofCode (bitField w 0 3)) s
    · exact .inl ⟨rfl, hr, _, h'⟩
    · exact .inr (.inl ⟨h', (ofBit_bitField_eq_cell_iff w).mp ha, hr⟩)
    · exact .inr (.inr (.inr ⟨h', hm, hr⟩))

/-- A compute word completes exactly where its code is legal and its accesses are in range. -/
theorem executeWord_completes_iff {w : Word} (h : w.msb = true) (s : State) :
    (∃ t, executeWord w s = .next t) ↔
      (AluOp.ofCode (bitField w 6 6)).isSome = true ∧
        AccessesInRange (.ofBit (bitField w 12 1)) (.ofBits (bitField w 3 3)) s := by
  constructor
  · rintro ⟨t, ht⟩
    obtain ⟨hc, hr, -⟩ | ⟨h', -⟩ | ⟨h', -⟩ | ⟨h', -⟩ := executeWord_compute_cases h s
    · exact ⟨hc, hr⟩
    all_goals (rw [h'] at ht; cases ht)
  · rintro ⟨hc, hr⟩
    obtain ⟨op, hop⟩ := Option.isSome_iff_exists.mp hc
    rw [executeWord_legal h hop]
    exact (compute_completes_iff ..).mpr hr

/-- Whether the accesses are in range depends on the masked index and the capacity alone. -/
theorem accessesInRange_congr {s s' : State} (hA : s.regA.toNat % 32768 = s'.regA.toNat % 32768) (hn : s.dataWords = s'.dataWords)
    (a : Source) (d : Dest) : AccessesInRange a d s ↔ AccessesInRange a d s' := by
  simp only [AccessesInRange, effectiveAddress, mask15_eq, hA, hn]

/-- Settles O12: each fault comes with its own cause, and completing reads only the word, the masked index and the capacity. -/
theorem computeRaisesOnlyItsThreeFaults : Obligations.ComputeRaisesOnlyItsThreeFaults := by
  refine ⟨fun w s h => ?_, fun w s s' h hA hn hs => ?_⟩
  · obtain ⟨-, -, hnext⟩ | hread | hcode | hwrite := executeWord_compute_cases h s
    · exact .inl hnext
    · exact .inr (.inl ⟨_, _, _, hread⟩)
    · exact .inr (.inr (.inl ⟨_, _, _, hcode⟩))
    · exact .inr (.inr (.inr ⟨_, _, _, hwrite⟩))
  · rwa [executeWord_completes_iff h, ← accessesInRange_congr hA hn, ← executeWord_completes_iff h]

end Sys2Proof.Machine
end

section
/-! PROOFS. Destinations: `A` and memory enabled together (`spec/43_destinations_and_jumps.md` R124). -/

namespace Sys2Proof.Machine

/-- With the `A` destination a completed compute instruction leaves the ALU's output in `A`. -/
theorem exec_compute_regA {op : AluOp} {a : Source} {d : Dest} {j : Jump} {s t : State} (ha : d.a = true)
    (h : exec (Instr.compute op a d j) s = .next t) : t.regA = alu op s.regD (operandValue a s) := by
  obtain ⟨-, rfl⟩ := compute_of_next (exec_compute op a d j s ▸ h)
  simp [ha]

/-- With the memory destination a completed compute instruction stores the ALU's output at the index the `A` before the step
gives, and keeps every other cell. -/
theorem exec_compute_storedAt {op : AluOp} {a : Source} {d : Dest} {j : Jump} {s t : State} (hwf : Memory.wf s.data = true)
    (hm : d.m = true) (h : exec (Instr.compute op a d j) s = .next t) :
    Memory.StoredAt (effectiveAddress s) (alu op s.regD (operandValue a s)) s.data t.data := by
  obtain ⟨-, rfl⟩ := compute_of_next (exec_compute op a d j s ▸ h)
  rw [jumpOrAdvance_data, routed_data, if_pos hm]
  exact Memory.storedAt_write hwf _ _

/-- Settles O29: the store and `A` receive the same output, and the store's index is taken in the state before the step. -/
theorem memoryWriteLandsAtTheOldA : Obligations.MemoryWriteLandsAtTheOldA := by
  intro op a dEnable j s t hinv h
  obtain ⟨-, -, -, -, -, -, hwf, -⟩ := hinv
  rw [exec_compute_regA rfl h]
  exact exec_compute_storedAt hwf rfl h

end Sys2Proof.Machine
end

section
/-! PROOFS. The screen window: writes into it are ordinary writes (`spec/60_exceptions.md` R163). -/

namespace Sys2Proof.Machine

/-- In range, a compute instruction completes. -/
theorem exec_compute_completes {a : Source} {d : Dest} {s : State} (hr : AccessesInRange a d s) (op : AluOp) (j : Jump) :
    ∃ t, exec (Instr.compute op a d j) s = .next t := by
  rw [exec_compute]
  exact (compute_completes_iff ..).mpr hr

/-- The end of a compute step keeps the surroundings: it writes `PC` alone. -/
theorem jumpOrAdvance_sameSurroundings (j : Jump) (r : Word) (s : State) : SameSurroundings s (jumpOrAdvance j r s) := by
  obtain ⟨n, -, h⟩ := jumpOrAdvance_eq_setPc j r s
  rw [h]
  exact ⟨rfl, rfl, rfl, rfl, rfl⟩

/-- A completed compute instruction keeps the surroundings: destination routing writes `A`, `D` and the data store alone. -/
theorem exec_compute_sameSurroundings {op : AluOp} {a : Source} {d : Dest} {j : Jump} {s t : State}
    (h : exec (Instr.compute op a d j) s = .next t) : SameSurroundings s t := by
  obtain ⟨-, rfl⟩ := compute_of_next (exec_compute op a d j s ▸ h)
  obtain ⟨hprog, hlen, hfault, hopen, hwords⟩ := jumpOrAdvance_sameSurroundings j (alu op s.regD (operandValue a s))
    (routed d (alu op s.regD (operandValue a s)) s)
  exact ⟨by rw [hprog, routed_prog], by rw [hlen, routed_len], by rw [hfault, routed_fault], by rw [hopen, routed_loadOpen],
    by rw [hwords, routed_dataWords]⟩

/-- A completed compute instruction routes the ALU's output: enabled destinations receive it, the others are kept (R120 to R126). -/
theorem exec_compute_resultRouted {op : AluOp} {a : Source} {d : Dest} {j : Jump} {s t : State} (hwf : Memory.wf s.data = true)
    (h : exec (Instr.compute op a d j) s = .next t) : ResultRouted d (alu op s.regD (operandValue a s)) s t := by
  have hstored (hm : d.m = true) := exec_compute_storedAt hwf hm h
  obtain ⟨-, rfl⟩ := compute_of_next (exec_compute op a d j s ▸ h)
  exact ⟨by rw [jumpOrAdvance_regA, routed_regA], by rw [jumpOrAdvance_regD, routed_regD], hstored, fun hm => by simp [hm]⟩

/-- A `D=M` at an index in range completes and leaves the cell's Word in `D`. -/
theorem exec_passM_toD {s : State} (hr : effectiveAddress s < s.dataWords) :
    ∃ u, exec (.passM ⟨false, true, false⟩ .never) s = .next u ∧ u.regD = Memory.read s.data (effectiveAddress s) := by
  obtain ⟨u, hu⟩ := exec_compute_completes (a := .cell) (d := ⟨false, true, false⟩) (fun _ => hr) .y .never
  exact ⟨u, hu, exec_compute_regD rfl hu⟩

/-- Settles O33: the window lies below the capacity, so the write is in range, and so is the read at the same index, where the
capacity is unchanged and the cell holds the result. -/
theorem windowWritesAreOrdinary : Obligations.WindowWritesAreOrdinary := by
  intro screenBase op a d j s hinv hwindow _ hlast hm
  obtain ⟨-, -, -, -, -, -, hwf, -⟩ := hinv
  have hr : effectiveAddress s < s.dataWords := hlast.trans_le hwindow
  obtain ⟨t, ht⟩ := exec_compute_completes (a := a) (d := d) (fun _ => hr) op j
  obtain ⟨hregA, hregD, hstored, -⟩ := exec_compute_resultRouted hwf ht
  have hsame := exec_compute_sameSurroundings ht
  obtain ⟨u, hu, hback⟩ := exec_passM_toD (s := { t with regA := s.regA }) (hr.trans_eq hsame.dataWords.symm)
  exact ⟨_, t, u, rfl, ht, hstored hm, hsame, hregA, hregD, hu, hback.trans (hstored hm).1⟩

end Sys2Proof.Machine
end

section
/-! PROOFS. Reset and the load: entry at program-store index 0 (`spec/70_reset_and_hazards.md` R171). -/

namespace Sys2Proof.Machine

/-- Writing a sequence from an index on keeps every cell below that index. -/
theorem Memory.read_writeFrom_of_lt {m : Memory} (hm : Memory.wf m = true) {i k : Nat} (h : k < i) (ws : List Word) :
    Memory.read (Memory.writeFrom m i ws) k = Memory.read m k := by
  induction ws generalizing m i with
  | nil => rfl
  | cons w ws ih =>
    calc Memory.read (Memory.writeFrom (Memory.write m i w) (i + 1) ws) k
        = Memory.read (Memory.write m i w) k := ih (Memory.wf_write hm i w) (Nat.lt_succ_of_lt h)
      _ = Memory.read m k := by rw [Memory.read_write hm, if_neg (Nat.ne_of_lt h)]

/-- The first word of a written sequence lies at the index the sequence starts from: the words after it are written above. -/
theorem Memory.read_writeFrom_first {m : Memory} (hm : Memory.wf m = true) (i : Nat) (w : Word) (ws : List Word) :
    Memory.read (Memory.writeFrom m i (w :: ws)) i = w := by
  rw [Memory.writeFrom, Memory.read_writeFrom_of_lt (Memory.wf_write hm i w) (Nat.lt_succ_self i), Memory.read_write hm,
    if_pos rfl]

/-- A load that answers `ok` had no fault latched and a program that fits, and has copied the words, recorded their number and closed
loads (R172, R173). -/
theorem hostLoad_of_ok {words : List Word} {s t : State} (h : hostLoad words s = (t, .ok)) :
    s.fault = none ∧ words.length ≤ 32768 ∧
      t = closeLoad { s with prog := Memory.writeFrom s.prog 0 words, len := words.length } := by
  obtain ⟨-, h'⟩ | ⟨-, -, -, h'⟩ | ⟨-, hf, hl, h'⟩ := hostLoad_cases words s <;> rw [h'] at h <;> cases h
  exact ⟨hf, hl, rfl⟩

@[simp] theorem closeLoad_closeLoad (s : State) : closeLoad (closeLoad s) = closeLoad s := rfl

@[simp] theorem State.construct_pc (n : Nat) : (State.construct n).pc = 0#16 := rfl
@[simp] theorem State.construct_prog (n : Nat) : (State.construct n).prog = [] := rfl

/-- After a load that answers `ok`, with `PC` in range, the step executes the word at `PC` in the very state the load left: no fault is
latched and loads are closed already (R175). -/
theorem step_of_hostLoad_ok {words : List Word} {s t : State} (h : hostLoad words s = (t, .ok)) (hpc : t.pc.toNat < 32768) :
    step t = executeWord (instructionWord t) t := by
  obtain ⟨hf, -, rfl⟩ := hostLoad_of_ok h
  rw [step_of_no_fault (by rw [closeLoad_fault, hf]), fetchDecodeExecute_of_lt hpc, closeLoad_closeLoad]

/-- Settles O44: the load leaves `PC` at 0 and never rewrites index 0 after its first word, so that word is the one the step fetches. -/
theorem executionEntersAtIndexZero : Obligations.ExecutionEntersAtIndexZero := by
  intro n w words t h
  obtain ⟨-, -, ht⟩ := hostLoad_of_ok h
  have hpc : t.pc = 0#16 := by rw [ht, closeLoad_pc, State.construct_pc]
  have hfirst : Memory.read t.prog 0 = w := by
    rw [ht, closeLoad_prog, State.construct_prog]
    exact Memory.read_writeFrom_first rfl 0 w words
  have hword : instructionWord t = w := by rw [instructionWord, hpc, BitVec.toNat_ofNat, Nat.zero_mod, hfirst]
  have hstep := step_of_hostLoad_ok h (by rw [hpc]; decide)
  exact ⟨hpc, hfirst, by rw [hstep, hword]⟩

end Sys2Proof.Machine
end

section
/-! PROOFS. Encoding: the decoder and the encoder undo each other, and which words are rejected (`spec/30_encoding.md` sections 2, 5
and 7). -/

namespace Sys2Proof.Machine

/-! ### The fields of an encoded word -/

section encodedFields
variable (op : AluOp) (a : Source) (d : Dest) (j : Jump)

@[simp] theorem msb_encodeCompute : (encodeCompute op a d j).msb = true := by
  change BitVec.msb (0b111#3 ++ a.bit ++ op.code ++ d.bits ++ j.code) = true
  simp only [BitVec.msb_append]
  rfl

@[simp] theorem bitField_encodeCompute_jump : bitField (encodeCompute op a d j) 0 3 = j.code :=
  BitVec.extractLsb'_append_eq_right

@[simp] theorem bitField_encodeCompute_dest : bitField (encodeCompute op a d j) 3 3 = d.bits := by
  rw [bitField, encodeCompute, BitVec.extractLsb'_append_eq_of_le le_rfl]
  exact BitVec.extractLsb'_append_eq_right

@[simp] theorem bitField_encodeCompute_code : bitField (encodeCompute op a d j) 6 6 = op.code := by
  rw [bitField, encodeCompute, BitVec.extractLsb'_append_eq_of_le (by decide), BitVec.extractLsb'_append_eq_of_le le_rfl]
  exact BitVec.extractLsb'_append_eq_right

@[simp] theorem bitField_encodeCompute_source : bitField (encodeCompute op a d j) 12 1 = a.bit := by
  rw [bitField, encodeCompute, BitVec.extractLsb'_append_eq_of_le (by decide), BitVec.extractLsb'_append_eq_of_le (by decide),
    BitVec.extractLsb'_append_eq_of_le le_rfl]
  exact BitVec.extractLsb'_append_eq_right

/-- Decoding the word of a compute instruction: each field reads back from its own bits. -/
theorem decode_encodeCompute : decode (encodeCompute op a d j) = .instruction (.compute op a d j) := by
  rw [decode_compute (msb_encodeCompute op a d j) (op := op) (by simp)]
  simp

end encodedFields

theorem wellFormed_atV_iff (v : Word) : (Instr.atV v).WellFormed ↔ v.msb = false := by
  simp [Instr.WellFormed, Instr.wf]

/-- Settles O2: an address word decodes to its literal, and a compute word gives each of its fields back. -/
theorem decodeOfEncodeIsTheInstruction : Obligations.DecodeOfEncodeIsTheInstruction := by
  intro i hwf
  obtain ⟨v, rfl⟩ | ⟨op, a, d, j, rfl⟩ := Instr.cases_compute i
  · exact decode_address ((wellFormed_atV_iff v).mp hwf)
  · rw [encode_compute, decode_encodeCompute]

/-! ### The word of a decoded instruction -/

/-- A compute word's fields, put together under `111`, have the word's bits with bits 14 and 13 set. -/
theorem getLsbD_append_bitFields {w : Word} (h : w.msb = true) {k : Nat} (hk : k < 16) :
    (0b111#3 ++ bitField w 12 1 ++ bitField w 6 6 ++ bitField w 3 3 ++ bitField w 0 3).getLsbD k =
      (w ||| 0x6000#16).getLsbD k := by
  rw [BitVec.msb_eq_getLsbD_last] at h
  simp only [BitVec.getLsbD_append, bitField, BitVec.getLsbD_extractLsb']
  interval_cases k <;> simp_all

/-- What the decoder's answer says of a word: it is an address word, or a compute word with a legal code. -/
theorem decode_instruction_cases {w : Word} {i : Instr} (h : decode w = .instruction i) :
    (w.msb = false ∧ i = .atV w) ∨
    (w.msb = true ∧ ∃ op, op.code = bitField w 6 6 ∧
      i = .compute op (.ofBit (bitField w 12 1)) (.ofBits (bitField w 3 3)) (.ofCode (bitField w 0 3))) := by
  cases hm : w.msb with
  | false =>
    rw [decode_address hm] at h
    cases h
    exact .inl ⟨rfl, rfl⟩
  | true =>
    cases hc : AluOp.ofCode (bitField w 6 6) with
    | none => rw [decode_illegal hm hc] at h; cases h
    | some op =>
      rw [decode_compute hm hc] at h
      cases h
      exact .inr ⟨rfl, op, AluOp.code_of_ofCode hc, rfl⟩

/-- Settles O3: an address word is its own encoding, and a compute word's fields encode back to the bits they were read from. -/
theorem encodeOfDecodeIsTheCanonicalWord : Obligations.EncodeOfDecodeIsTheCanonicalWord := by
  intro w i h
  obtain ⟨hm, rfl⟩ | ⟨hm, op, hcode, rfl⟩ := decode_instruction_cases h
  · exact ⟨(wellFormed_atV_iff w).mpr hm, by simp [hm, encode]⟩
  · refine ⟨Instr.wf_compute .., ?_⟩
    rw [encode_compute, encodeCompute, Source.bit_ofBit, hcode, Dest.bits_ofBits, Jump.code_ofCode, if_pos hm]
    exact BitVec.eq_of_getLsbD_eq fun k hk => getLsbD_append_bitFields hm hk

/-! ### Bits 14 and 13 -/

/-- A field below bit 13 is the same in two words that agree on bits 12 to 0. -/
theorem bitField_congr {w w' : Word} (h : ∀ k < 13, w.getLsbD k = w'.getLsbD k) {lo width : Nat} (hle : lo + width ≤ 13) :
    bitField w lo width = bitField w' lo width := by
  apply BitVec.eq_of_getLsbD_eq
  intro k hk
  simp [bitField, hk, h (lo + k) (by omega)]

/-- Settles O5: the four fields the decoder reads of a compute word lie in bits 12 to 0. -/
theorem computeWordsIgnoreBits14And13 : Obligations.ComputeWordsIgnoreBits14And13 := by
  intro w w' hm hm' h
  have hclass : classify w = classify w' := by
    rw [classify_compute hm, classify_compute hm', bitField_congr h (lo := 12) (by decide), bitField_congr h (lo := 6) (by decide),
      bitField_congr h (lo := 3) (by decide), bitField_congr h (lo := 0) (by decide)]
  simp only [decode, hclass]

/-! ### The rejected words -/

/-- The 46 listed codes are those that name no operation (R70). -/
theorem ofCode_eq_none_iff (c : BitVec 6) : AluOp.ofCode c = none ↔ c ∈ illegalComputeCodes := by
  revert c; decide

/-- The operand source of a word, by its bit 12 (R66). -/
theorem ofBit_bitField_eq_ite (w : Word) : Source.ofBit (bitField w 12 1) = if w.getLsbD 12 then .cell else .regA := by
  split
  · exact (ofBit_bitField_eq_cell_iff w).mpr ‹_›
  · cases hs : Source.ofBit (bitField w 12 1)
    · rfl
    · exact absurd ((ofBit_bitField_eq_cell_iff w).mp hs) ‹_›

/-- A word is rejected exactly where it is a compute word whose code names no operation. -/
theorem decode_undecodable_iff (w : Word) (a : Source) (c : BitVec 6) :
    decode w = .undecodableInstruction a c ↔
      w.msb = true ∧ AluOp.ofCode (bitField w 6 6) = none ∧ a = .ofBit (bitField w 12 1) ∧ c = bitField w 6 6 := by
  cases hm : w.msb with
  | false => simp [decode_address hm]
  | true =>
    cases hc : AluOp.ofCode (bitField w 6 6) with
    | none => simp [decode_illegal hm hc, eq_comm]
    | some op => simp [decode_compute hm hc]

/-- Settles O6: the decoder rejects the compute words whose code names no operation, and those are the 46 listed codes. -/
theorem rejectedWordsAreThoseWithAnIllegalCode : Obligations.RejectedWordsAreThoseWithAnIllegalCode := by
  refine ⟨rfl, fun w a c => ?_⟩
  rw [decode_undecodable_iff, ofBit_bitField_eq_ite, ofCode_eq_none_iff]
  constructor
  · rintro ⟨hm, hc, ha, rfl⟩
    exact ⟨hm, hc, rfl, ha⟩
  · rintro ⟨hm, hc, rfl, ha⟩
    exact ⟨hm, hc, ha, rfl⟩

/-- Settles O1: each word is a closed case of the decoder. -/
theorem specWordsDecode : Obligations.SpecWordsDecode := by
  unfold Obligations.SpecWordsDecode
  decide

end Sys2Proof.Machine
end

section
/-! PROOFS. What every step and every host request can do, and the invariant they keep (`spec/10_state.md` section 5,
`spec/70_reset_and_hazards.md` section 2). -/

namespace Sys2Proof.Machine

/-! ### Two outcomes -/

/-- No instruction is refused: it completes or raises a fault. -/
theorem exec_cases (i : Instr) (s : State) : (∃ t, exec i s = .next t) ∨ ∃ r, exec i s = .fault r := by
  obtain ⟨v, rfl⟩ | ⟨op, a, d, j, rfl⟩ := Instr.cases_compute i
  · exact .inl ⟨_, exec_atV v s⟩
  · rw [exec_compute]
    obtain ⟨-, h⟩ | ⟨-, -, h⟩ | ⟨-, -, -, h⟩ := compute_cases op a d j s
    · exact .inl ⟨_, h⟩
    · exact .inr ⟨_, h⟩
    · exact .inr ⟨_, h⟩

/-- No word is refused. -/
theorem executeWord_cases (w : Word) (s : State) :
    (∃ t, executeWord w s = .next t) ∨ ∃ r, executeWord w s = .fault r := by
  cases hd : decode w with
  | instruction i =>
    rw [executeWord_instruction hd]
    exact exec_cases i s
  | undecodableInstruction a c =>
    rw [executeWord_undecodable hd]
    obtain ⟨-, h⟩ | ⟨-, -, h⟩ := executeUndecodable_cases a c s
    · exact .inr ⟨_, h⟩
    · exact .inr ⟨_, h⟩

/-- No step is refused. -/
theorem step_cases (s : State) : (∃ t, step s = .next t) ∨ ∃ r, step s = .fault r := by
  cases hf : s.fault with
  | some r => exact .inr ⟨r, step_of_fault hf⟩
  | none =>
    rw [step_of_no_fault hf]
    by_cases hpc : s.pc.toNat < 32768
    · rw [fetchDecodeExecute_of_lt hpc]
      exact executeWord_cases ..
    · exact .inr ⟨_, fetchDecodeExecute_of_le (Nat.not_lt.mp hpc)⟩

/-- Settles O14: the two outcomes of an instruction and of a step leave no refusal. -/
theorem nothingIsRefused : Obligations.NothingIsRefused := by
  refine ⟨fun i s q h => ?_, fun s q h => ?_⟩
  · obtain ⟨_, h'⟩ | ⟨_, h'⟩ := exec_cases i s <;> cases h'.symm.trans h
  · obtain ⟨_, h'⟩ | ⟨_, h'⟩ := step_cases s <;> cases h'.symm.trans h

/-! ### What the host can do to a state -/

/-- A property that host steps keep is kept by every run. -/
theorem hostRun_keeps {P : State → Prop} (hstep : ∀ s, P s → P (hostStep s).1) (n : Nat) {s : State} (h : P s) :
    P (hostRun n s).1 := by
  induction n generalizing s with
  | zero => exact h
  | succ n ih =>
    have hs := hstep s h
    obtain ⟨t, ht⟩ | ⟨r, hr⟩ := step_cases s
    · rw [hostRun_succ_of_next ht]
      rw [hostStep_of_next ht] at hs
      exact ih hs
    · rw [hostRun_succ_of_fault hr]
      rwa [hostStep_of_fault hr] at hs

/-- A property that loads and steps keep is kept by every request: the other requests read. -/
theorem serve_keeps {P : State → Prop} (hload : ∀ words s, P s → P (hostLoad words s).1) (hstep : ∀ s, P s → P (hostStep s).1)
    (screenBase : Nat) (q : Request) {s : State} (h : P s) : P (serve screenBase q s).1 := by
  cases q with
  | load words => exact hload words s h
  | step => exact hstep s h
  | run n => exact hostRun_keeps hstep n h
  | readA | readD | readPC | readCell | readLen | sample => exact h

/-! ### The invariant -/

/-- Settles O35: every field of a constructed engine is 0 or empty, but the capacity. -/
theorem constructedEngineMeetsTheInvariant : Obligations.ConstructedEngineMeetsTheInvariant := by
  have hconstruct (n : Nat) (h1 : 1 ≤ n) (hn : n ≤ 32768) : (State.construct n).Inv :=
    ⟨(by decide : 0 < 32768), Nat.zero_le _, h1, hn, rfl, rfl, rfl, rfl⟩
  exact ⟨hconstruct 32768 (by decide) le_rfl, hconstruct⟩

theorem inv_setPc {n : Nat} (hn : n < 32768) {s : State} (h : s.Inv) : (setPc n s).Inv := by
  obtain ⟨-, hrest⟩ := h
  exact ⟨by rw [setPc_toNat hn]; exact hn, hrest⟩

theorem inv_setData {i : Nat} {s : State} (hi : i < s.dataWords) (v : Word) (h : s.Inv) : (setData i v s).Inv := by
  obtain ⟨hpc, hlen, hmin, hmax, hprog, hprogIn, hwf, hin⟩ := h
  exact ⟨hpc, hlen, hmin, hmax, hprog, hprogIn, Memory.wf_write hwf i v, Memory.within_write hin hi v⟩

/-- Destination routing in range keeps the invariant: `A` and `D` are not in it, and the store is written inside its capacity. -/
theorem inv_routed {d : Dest} {s : State} (hr : d.m = true → effectiveAddress s < s.dataWords) (r : Word) (h : s.Inv) :
    (routed d r s).Inv := by
  have hstored : (if d.m then setData (effectiveAddress s) r s else s).Inv := by
    split
    · exact inv_setData (hr ‹_›) r h
    · exact h
  unfold routed routeA routeD
  split <;> split <;> exact hstored

theorem inv_jumpOrAdvance (j : Jump) (r : Word) {s : State} (h : s.Inv) : (jumpOrAdvance j r s).Inv := by
  obtain ⟨n, hn, heq⟩ := jumpOrAdvance_eq_setPc j r s
  rw [heq]
  exact inv_setPc hn h

/-- Settles O36: each step writes `PC` with an index, and the data store, if at all, inside its capacity. -/
theorem stepKeepsTheInvariant : Obligations.StepKeepsTheInvariant := by
  intro s t h hstep
  have hclosed : (closeLoad s).Inv := h
  obtain ⟨-, -, ⟨v, -, rfl⟩ | ⟨op, a, d, j, -, hr, rfl⟩⟩ := step_next_cases hstep
  · have hA : (setA (BitVec.ofNat 16 (mask15 v)) (closeLoad s)).Inv := hclosed
    exact inv_setPc (pcAfter_lt _) hA
  · exact inv_jumpOrAdvance _ _ (inv_routed (s := closeLoad s) (fun hm => hr (.inr hm)) _ hclosed)

theorem inv_hostStep (s : State) (h : s.Inv) : (hostStep s).1.Inv := by
  obtain ⟨t, ht⟩ | ⟨r, hr⟩ := step_cases s
  · rw [hostStep_of_next ht]
    exact stepKeepsTheInvariant s t h ht
  · rw [hostStep_of_fault hr]
    exact h

/-- A load that is accepted writes at most 32768 words from index 0 on, and one that is not changes nothing. -/
theorem inv_hostLoad (words : List Word) (s : State) (h : s.Inv) : (hostLoad words s).1.Inv := by
  obtain ⟨-, heq⟩ | ⟨-, -, -, heq⟩ | ⟨-, -, hlen, heq⟩ := hostLoad_cases words s <;> rw [heq]
  · exact h
  · exact h
  · obtain ⟨hpc, -, hmin, hmax, hprog, hprogIn, hwf, hin⟩ := h
    have hfits : 0 + words.length ≤ Config.progWords := by rwa [Nat.zero_add]
    exact ⟨hpc, hlen, hmin, hmax, Memory.wf_writeFrom hprog 0 words, Memory.within_writeFrom hprogIn 0 words hfits, hwf, hin⟩

/-- Settles O37: loads and steps keep the invariant, so every request does. -/
theorem hostRequestsKeepTheInvariant : Obligations.HostRequestsKeepTheInvariant :=
  fun screenBase q _ h => serve_keeps inv_hostLoad inv_hostStep screenBase q h

end Sys2Proof.Machine
end

section
/-! PROOFS. Indices and stores (`spec/20_memory.md` sections 4 and 6). -/

namespace Sys2Proof.Machine

theorem mask15_xor_bit15 (w : Word) : mask15 (w ^^^ 0x8000#16) = mask15 w := by
  have hlow : (w ^^^ 0x8000#16).extractLsb' 0 15 = w.extractLsb' 0 15 := by
    apply BitVec.eq_of_getLsbD_eq
    intro k hk
    have hclear : (0x8000#16).getLsbD k = false := by interval_cases k <;> rfl
    simp [hk, hclear]
  rw [mask15, hlow, mask15]

/-- Settles O32: the mask keeps bits 14 to 0, which neither bit 15 nor its change is among. -/
theorem indexDropsOnlyBit15 : Obligations.IndexDropsOnlyBit15 :=
  fun w => ⟨mask15_eq w, mask15_lt w, mask15_xor_bit15 w, mask15_of_msb_false⟩

/-- A canonical store does not read as an empty one: its first cell holds no 0. -/
theorem Memory.read_first_ne_zero {lo k : Nat} {v : Word} {m : Memory} (h : Memory.wfFrom lo ((k, v) :: m) = true) :
    Memory.read ((k, v) :: m) k ≠ 0 := by
  obtain ⟨-, hv, -⟩ := (Memory.wfFrom_pair ..).mp h
  rwa [Memory.read_pair, if_pos rfl]

/-- The first listed index is the least index that does not read 0. -/
theorem Memory.first_le_of_read_ne_zero {lo k i : Nat} {v : Word} {m : Memory} (h : Memory.wfFrom lo ((k, v) :: m) = true)
    (hi : Memory.read ((k, v) :: m) i ≠ 0) : k ≤ i := by
  obtain ⟨-, hv, hm⟩ := (Memory.wfFrom_pair ..).mp h
  by_contra hlt
  exact hi (Memory.read_below ((Memory.wfFrom_pair ..).mpr ⟨le_rfl, hv, hm⟩) (Nat.not_le.mp hlt))

/-- Two canonical stores that read alike are equal, by induction on both: their first cells are the least that do not read 0. -/
theorem Memory.eq_of_read_eq {m m' : Memory} {lo lo' : Nat} (hm : Memory.wfFrom lo m = true) (hm' : Memory.wfFrom lo' m' = true)
    (h : ∀ i, Memory.read m i = Memory.read m' i) : m = m' := by
  induction m generalizing m' lo lo' with
  | nil =>
    cases m' with
    | nil => rfl
    | cons c m' => exact absurd (h c.1).symm (Memory.read_first_ne_zero hm')
  | cons c m ih =>
    cases m' with
    | nil => exact absurd (h c.1) (Memory.read_first_ne_zero hm)
    | cons c' m' =>
      obtain ⟨k, v⟩ := c
      obtain ⟨k', v'⟩ := c'
      have hk : k = k' := Nat.le_antisymm
        (Memory.first_le_of_read_ne_zero hm (h k' ▸ Memory.read_first_ne_zero hm'))
        (Memory.first_le_of_read_ne_zero hm' (h k ▸ Memory.read_first_ne_zero hm))
      subst hk
      have hv : v = v' := by simpa [Memory.read_pair] using h k
      obtain ⟨-, -, htail⟩ := (Memory.wfFrom_pair ..).mp hm
      obtain ⟨-, -, htail'⟩ := (Memory.wfFrom_pair ..).mp hm'
      have hread (i : Nat) : Memory.read m i = Memory.read m' i := by
        by_cases hi : k = i
        · rw [Memory.read_below htail (by omega), Memory.read_below htail' (by omega)]
        · simpa [Memory.read_pair, hi] using h i
      rw [hv, ih htail htail' hread]

/-- Settles O34: the canonical form is the lower bound 0 in both stores. -/
theorem storesThatReadAlikeAreEqual : Obligations.StoresThatReadAlikeAreEqual :=
  fun _ _ hm hm' h => Memory.eq_of_read_eq hm hm' h

end Sys2Proof.Machine
end

section
/-! PROOFS. The step and its faults (`spec/60_exceptions.md` sections 1 to 3, `spec/70_reset_and_hazards.md` section 2). -/

namespace Sys2Proof.Machine

/-! ### The fetched word -/

/-- Settles O7: in range and without a fault, the step executes what the word at `PC` decodes to, with loads closed. -/
theorem stepRunsTheDecodedInstruction : Obligations.StepRunsTheDecodedInstruction :=
  fun _ _ hf hpc hd => step_of_fetch hf rfl hpc rfl hd

theorem withFetchWord_toNat (w : Word) (s : State) : s.withFetchWord 16 w.toNat = placeFetchWord w s := by
  rw [State.withFetchWord, Nat.mod_eq_of_lt w.isLt, BitVec.ofNat_toNat, BitVec.setWidth_eq]

/-- Settles O8: the placed word is the one read back at `PC`, and the latch that could stop the step is cleared. -/
theorem placedWordIsTheNextInstruction : Obligations.PlacedWordIsTheNextInstruction := by
  intro s w i hinv hd
  obtain ⟨hpc, -, -, -, hprog, -, -, -⟩ := hinv
  rw [withFetchWord_toNat]
  have hstored : Memory.StoredAt s.pc.toNat w s.prog (placeFetchWord w s).prog := Memory.storedAt_write hprog _ w
  exact ⟨step_of_fetch rfl rfl hpc hstored.1 hd, hstored, rfl⟩

/-! ### Where a step stops -/

/-- An illegal code at an in-range `PC` stops the step as `executeUndecodable` does. -/
theorem step_of_undecodable {s : State} {a : Source} {c : BitVec 6} (hf : s.fault = none) (hpc : s.pc.toNat < 32768)
    (hd : decode (instructionWord s) = .undecodableInstruction a c) : step s = executeUndecodable a c (closeLoad s) := by
  rw [step_of_no_fault hf, fetchDecodeExecute_of_lt hpc, executeWord_undecodable hd]

/-- Settles O10: the two cases of an illegal code exclude each other by the operand source and the index. -/
theorem illegalCodeStopsTheStep : Obligations.IllegalCodeStopsTheStep := by
  intro s a c hf hpc hd
  rw [step_of_undecodable hf hpc hd]
  obtain ⟨hin, h⟩ | ⟨ha, hout, h⟩ := executeUndecodable_cases a c (closeLoad s) <;> rw [h]
  · exact ⟨fun ⟨ha, hout⟩ => absurd (hin ha) (Nat.not_lt.mpr hout), fun _ => rfl⟩
  · exact ⟨fun _ => rfl, fun hnot => absurd ⟨ha, hout⟩ hnot⟩

/-- Settles O11: with the index out of range the read is met first, then the write; a form that makes neither completes. -/
theorem outOfRangeAccessStopsACompute : Obligations.OutOfRangeAccessStopsACompute := by
  intro op d j s hout
  simp only [exec_compute]
  refine ⟨compute_read_out_of_range hout op d j, fun hm => compute_write_out_of_range hm hout op j, fun hm => ?_⟩
  have hr : AccessesInRange .regA d s := by simp [AccessesInRange, hm]
  exact ⟨_, compute_in_range hr j, by simp [hm]⟩

/-- Settles O13: completing is decided by the accesses alone. -/
theorem arithmeticRaisesNothing : Obligations.ArithmeticRaisesNothing := by
  intro op a d j s
  rw [exec_compute]
  exact compute_completes_iff op a d j s

/-- At the capacity of this hardware every index is in range, so every instruction completes. -/
theorem exec_completes_of_full_capacity {s : State} (h : s.dataWords = 32768) (i : Instr) : ∃ t, exec i s = .next t := by
  obtain ⟨v, rfl⟩ | ⟨op, a, d, j, rfl⟩ := Instr.cases_compute i
  · exact ⟨_, exec_atV v s⟩
  · exact exec_compute_completes (fun _ => h ▸ mask15_lt s.regA) op j

/-- Settles O15: no fetch and no index is out of range, so the only cause left for a fault is the code. -/
theorem fullCapacityRunsEveryLegalWord : Obligations.FullCapacityRunsEveryLegalWord := by
  intro s hinv hf hcap
  obtain ⟨hpc, -⟩ := hinv
  refine ⟨fun i hd => ?_, fun r hr => ?_⟩
  · rw [step_of_fetch hf rfl hpc rfl hd]
    exact exec_completes_of_full_capacity (s := closeLoad s) hcap i
  · obtain hlatched | ⟨-, hfetch, -⟩ | ⟨-, -, ⟨_, c, -, -, hcode⟩ | ⟨hout, -⟩⟩ := step_fault_cases hr
    · cases hf.symm.trans hlatched
    · exact absurd hpc (Nat.not_lt.mpr hfetch)
    · exact ⟨c, hcode⟩
    · exact absurd (hcap ▸ hout) (Nat.not_le.mpr (mask15_lt s.regA))

/-! ### The latch -/

theorem latchFault_of_fault {s : State} {r : Fault} (h : s.fault = some r) : latchFault r s = s := by
  rw [latchFault, ← h]

/-- A load is refused once loads are closed, and while a fault is latched (R173; log 4). -/
theorem hostLoad_refused {s : State} (h : s.loadOpen = false ∨ s.fault.isSome = true) (words : List Word) :
    hostLoad words s = (s, .loadRefused) := by
  have hclosed : (!s.loadOpen || s.fault.isSome) = true := by simpa using h
  rw [hostLoad, if_pos hclosed]

/-- Settles O16: the step reports the latched fault, and latching it again changes nothing. -/
theorem latchedFaultStopsTheEngine : Obligations.LatchedFaultStopsTheEngine := by
  intro s r h
  have hstep := step_of_fault h
  refine ⟨hstep, ?_, fun n => ?_, hostLoad_refused (.inr (by rw [h, Option.isSome_some]))⟩
  · rw [hostStep_of_fault hstep, latchFault_of_fault h]
  · rw [hostRun_succ_of_fault hstep, latchFault_of_fault h]

/-- Settles O17: the host's step writes the latch alone, and each of the four records names its own cause. -/
theorem faultingStepIsPrecise : Obligations.FaultingStepIsPrecise := by
  intro s r hf hr
  rw [hostStep_of_fault hr]
  refine ⟨rfl, rfl, rfl, ?_⟩
  obtain hlatched | ⟨-, hpc, rfl⟩ | ⟨-, hpc, ⟨a, c, -, -, rfl⟩ | ⟨-, rfl | rfl⟩⟩ := step_fault_cases hr
  · cases hf.symm.trans hlatched
  · simp [Fault.pc, Fault.code, hpc]
  · simp [Fault.pc, Fault.code, Fault.word, instructionWord, hpc]
  · simp [Fault.pc, Fault.code, Fault.word, Fault.detail, instructionWord, hpc]
  · simp [Fault.pc, Fault.code, Fault.word, Fault.detail, instructionWord, hpc]

end Sys2Proof.Machine
end

section
/-! PROOFS. Each instruction completes: results, completion and frame (`spec/40_address_load.md`, `spec/42_alu_operations.md`,
`spec/43_destinations_and_jumps.md`). -/

namespace Sys2Proof.Machine

/-! ### The address instruction -/

/-- Settles O19: the two written fields hold the masked literal and the advanced `PC`. -/
theorem addressLoadCompletes : Obligations.AddressLoadCompletes := by
  intro v s
  refine ⟨_, exec_atV v s, ?_, fun hwf => ?_, advance_pc _, rfl, rfl, ⟨rfl, rfl, rfl, rfl, rfl⟩⟩
  · rw [advance_regA, setA_regA, ofNat_mask15_toNat]
  · rw [advance_regA, setA_regA, ofNat_mask15_of_msb_false ((wellFormed_atV_iff v).mp hwf)]

/-! ### The compute instruction -/

/-- The end of a compute step puts `PC` where the predicate sends it: to the `A` that stands there, or one further. -/
theorem jumpOrAdvance_pcUpdated (j : Jump) (r : Word) {s s' : State} (hpc : s'.pc = s.pc) :
    PcUpdated j r s (jumpOrAdvance j r s') := by
  refine ⟨fun hj => ?_, fun hj => ?_⟩
  · rw [jumpOrAdvance_of_taken ((jumpTaken_iff j r).mpr hj), setPc_toNat (mask15_lt _), setPc_regA, mask15_eq]
  · rw [jumpOrAdvance_of_not_jumpHolds hj, jumpOrAdvance_of_not_taken rfl, advance_pc, hpc]

/-- In range, a compute instruction completes with the ALU's output on `D` and the resolved operand (R85, R90). -/
theorem completes_compute (op : AluOp) (a : Source) {d : Dest} {j : Jump} {s : State} (hinv : s.Inv) (hr : AccessesInRange a d s) :
    Completes (Instr.compute op a d j) d j (alu op s.regD (operandValue a s)) s := by
  obtain ⟨-, -, -, -, -, -, hwf, -⟩ := hinv
  have hexec := (exec_compute op a d j s).trans (compute_in_range hr j)
  exact ⟨_, hexec, exec_compute_resultRouted hwf hexec, jumpOrAdvance_pcUpdated j _ (routed_pc d _ s),
    exec_compute_sameSurroundings hexec⟩

/-- In range, an `a = 0` form completes with the ALU's output on `D` and `A`, by whatever name `r` it goes. -/
theorem completes_regA {op : AluOp} {d : Dest} {j : Jump} {s : State} (hinv : s.Inv) (hr : AccessesInRange .regA d s) {r : Word}
    (h : alu op s.regD s.regA = r) : Completes (Instr.compute op .regA d j) d j r s :=
  h ▸ completes_compute op .regA hinv hr

/-- In range, an `a = 1` form completes with the ALU's output on `D` and the cell at `A` modulo 32768, by whatever name `r` it goes. -/
theorem completes_cell {op : AluOp} {d : Dest} {j : Jump} {s : State} (hinv : s.Inv) (hr : AccessesInRange .cell d s) {r : Word}
    (h : alu op s.regD (Memory.read s.data (s.regA.toNat % 32768)) = r) : Completes (Instr.compute op .cell d j) d j r s := by
  rw [← h, ← operandValue_cell]
  exact completes_compute op .cell hinv hr

/-- Settles O20: the three constant operations ignore their inputs. -/
theorem constantInstructionsComplete : Obligations.ConstantInstructionsComplete :=
  fun _ _ _ hinv =>
    ⟨fun hr => ⟨completes_regA (op := .zero) hinv hr rfl, completes_regA (op := .one) hinv hr rfl,
      completes_regA (op := .negOne) hinv hr rfl⟩,
    fun hr => ⟨completes_cell (op := .zero) hinv hr rfl, completes_cell (op := .one) hinv hr rfl,
      completes_cell (op := .negOne) hinv hr rfl⟩⟩

/-- Settles O21: the two move operations are the projections. -/
theorem moveInstructionsComplete : Obligations.MoveInstructionsComplete :=
  fun _ _ _ hinv =>
    ⟨fun hr => ⟨completes_regA (op := .x) hinv hr rfl, completes_regA (op := .y) hinv hr rfl⟩,
    fun hr => ⟨completes_cell (op := .x) hinv hr rfl, completes_cell (op := .y) hinv hr rfl⟩⟩

/-- Bitwise complement, bit by bit. -/
theorem getLsbD_not (x : Word) : ∀ k < 16, (~~~x).getLsbD k = !x.getLsbD k := fun k hk => by simp [hk]

/-- Settles O22: the two complement operations invert each bit of their operand. -/
theorem complementInstructionsComplete : Obligations.ComplementInstructionsComplete :=
  fun _ _ _ hinv =>
    ⟨fun hr => ⟨⟨_, getLsbD_not _, completes_regA (op := .notX) hinv hr rfl⟩,
      ⟨_, getLsbD_not _, completes_regA (op := .notY) hinv hr rfl⟩⟩,
    fun hr => ⟨⟨_, getLsbD_not _, completes_cell (op := .notX) hinv hr rfl⟩,
      ⟨_, getLsbD_not _, completes_cell (op := .notY) hinv hr rfl⟩⟩⟩

/-! ### Integer arithmetic reduced by `trunc16` -/

/-- Word addition is the integer sum of the unsigned values, reduced (R110, R111, R114). -/
theorem add_eq_trunc16 (x y : Word) : x + y = trunc16 (x.toNat + y.toNat) := by
  rw [trunc16, BitVec.ofInt_add, BitVec.ofInt_natCast, BitVec.ofInt_natCast, BitVec.ofNat_toNat, BitVec.ofNat_toNat,
    BitVec.setWidth_eq, BitVec.setWidth_eq]

/-- Word negation is the integer negation of the unsigned value, reduced (R108, R109). -/
theorem neg_eq_trunc16 (x : Word) : -x = trunc16 (0 - x.toNat) := by
  rw [trunc16, Int.zero_sub, BitVec.ofInt_neg, BitVec.ofInt_natCast, BitVec.ofNat_toNat, BitVec.setWidth_eq]

/-- Word subtraction is the integer difference of the unsigned values, reduced (R112, R113, R115, R116). -/
theorem sub_eq_trunc16 (x y : Word) : x - y = trunc16 (x.toNat - y.toNat) := by
  rw [trunc16, Int.sub_eq_add_neg, BitVec.ofInt_add, BitVec.ofInt_neg, BitVec.ofInt_natCast, BitVec.ofInt_natCast,
    BitVec.ofNat_toNat, BitVec.ofNat_toNat, BitVec.setWidth_eq, BitVec.setWidth_eq, BitVec.sub_eq_add_neg]

/-- Settles O23: both negations are integer negation reduced. -/
theorem negationInstructionsComplete : Obligations.NegationInstructionsComplete :=
  fun _ _ _ hinv =>
    ⟨fun hr => ⟨completes_regA (op := .negX) hinv hr (neg_eq_trunc16 _), completes_regA (op := .negY) hinv hr (neg_eq_trunc16 _)⟩,
    fun hr => ⟨completes_cell (op := .negX) hinv hr (neg_eq_trunc16 _), completes_cell (op := .negY) hinv hr (neg_eq_trunc16 _)⟩⟩

/-- Settles O24: the second term of the sum or difference is the Word 1. -/
theorem incrementAndDecrementComplete : Obligations.IncrementAndDecrementComplete :=
  fun _ _ _ hinv =>
    ⟨fun hr => ⟨completes_regA (op := .incX) hinv hr (add_eq_trunc16 _ 1#16),
      completes_regA (op := .incY) hinv hr (add_eq_trunc16 _ 1#16),
      completes_regA (op := .decX) hinv hr (sub_eq_trunc16 _ 1#16),
      completes_regA (op := .decY) hinv hr (sub_eq_trunc16 _ 1#16)⟩,
    fun hr => ⟨completes_cell (op := .incX) hinv hr (add_eq_trunc16 _ 1#16),
      completes_cell (op := .incY) hinv hr (add_eq_trunc16 _ 1#16),
      completes_cell (op := .decX) hinv hr (sub_eq_trunc16 _ 1#16),
      completes_cell (op := .decY) hinv hr (sub_eq_trunc16 _ 1#16)⟩⟩

/-- Settles O25: `rsub` takes `D` from the operand. -/
theorem additionAndSubtractionComplete : Obligations.AdditionAndSubtractionComplete :=
  fun _ _ _ hinv =>
    ⟨fun hr => ⟨completes_regA (op := .add) hinv hr (add_eq_trunc16 _ _), completes_regA (op := .sub) hinv hr (sub_eq_trunc16 _ _),
      completes_regA (op := .rsub) hinv hr (sub_eq_trunc16 _ _)⟩,
    fun hr => ⟨completes_cell (op := .add) hinv hr (add_eq_trunc16 _ _), completes_cell (op := .sub) hinv hr (sub_eq_trunc16 _ _),
      completes_cell (op := .rsub) hinv hr (sub_eq_trunc16 _ _)⟩⟩

/-- Settles O26: the two logic operations are bitwise by definition. -/
theorem logicInstructionsComplete : Obligations.LogicInstructionsComplete :=
  fun _ _ _ hinv =>
    ⟨fun hr => ⟨⟨_, fun _ _ => BitVec.getLsbD_and, completes_regA (op := .and) hinv hr rfl⟩,
      ⟨_, fun _ _ => BitVec.getLsbD_or, completes_regA (op := .or) hinv hr rfl⟩⟩,
    fun hr => ⟨⟨_, fun _ _ => BitVec.getLsbD_and, completes_cell (op := .and) hinv hr rfl⟩,
      ⟨_, fun _ _ => BitVec.getLsbD_or, completes_cell (op := .or) hinv hr rfl⟩⟩⟩

/-! ### The jump -/

/-- A completed compute instruction whose predicate holds of its result jumps to the `A` it leaves. -/
theorem exec_compute_jumps {op : AluOp} {a : Source} {d : Dest} {j : Jump} {s : State} (hinv : s.Inv) (hr : AccessesInRange a d s)
    (hj : JumpHolds j (alu op s.regD (operandValue a s)).toInt) :
    ∃ t, exec (Instr.compute op a d j) s = .next t ∧ t.pc.toNat = t.regA.toNat % 32768 ∧
      t.regA = (if d.a then alu op s.regD (operandValue a s) else s.regA) ∧
      (d.m = true → Memory.StoredAt (effectiveAddress s) (alu op s.regD (operandValue a s)) s.data t.data) := by
  obtain ⟨t, ht, ⟨hregA, -, hstored, -⟩, ⟨htaken, -⟩, -⟩ := completes_compute op a (j := j) hinv hr
  exact ⟨t, ht, htaken hj, hregA, hstored⟩

theorem toInt_ne_zero_of_ne {w : Word} (h : w ≠ 0#16) : w.toInt ≠ 0 :=
  fun h0 => h (BitVec.eq_of_toInt_eq h0)

/-- Settles O30: in the two examples of the source `A` is a destination, so the target is their result. -/
theorem jumpTargetIsTheNewA : Obligations.JumpTargetIsTheNewA := by
  intro s hinv
  refine ⟨fun op a d j hr hj => exec_compute_jumps hinv hr hj, ?_, fun hin hne => ?_⟩
  · have hr : AccessesInRange .regA ⟨true, false, false⟩ s := by simp [AccessesInRange]
    obtain ⟨t, ht, hpc, hA, -⟩ := exec_compute_jumps (op := .x) (j := .jmp) hinv hr trivial
    have hD : t.regA = s.regD := hA
    exact ⟨t, ht, hD, hD ▸ hpc⟩
  · have hr : AccessesInRange .cell ⟨true, false, true⟩ s := fun _ => hin
    have hj : JumpHolds .jne (alu .decY s.regD (operandValue .cell s)).toInt :=
      toInt_ne_zero_of_ne fun h0 => hne (sub_eq_zero.mp h0)
    obtain ⟨t, ht, hpc, hA, hstored⟩ := exec_compute_jumps hinv hr hj
    have hM : t.regA = Memory.read s.data (effectiveAddress s) - 1#16 := hA
    exact ⟨t, ht, hM, hpc, hM ▸ hstored rfl⟩

/-- Settles O31: each of the eight predicates is the disjunction of the signs its code selects. -/
theorem jumpCodeBitsSelectTheSigns : Obligations.JumpCodeBitsSelectTheSigns := by
  intro c r
  obtain ⟨j, rfl⟩ : ∃ j : Jump, c = j.code := ⟨_, (Jump.code_ofCode c).symm⟩
  rw [Jump.ofCode_code, jumpTaken_iff]
  cases j <;> simp [JumpHolds, Jump.code] <;> omega

end Sys2Proof.Machine
end

section
/-! PROOFS. What a step leaves unchanged (`spec/10_state.md` sections 1, 4 and 5, `spec/20_memory.md` sections 6 and 9). -/

namespace Sys2Proof.Machine

/-! ### The surroundings of an instruction -/

/-- A step that completes has executed the instruction its word decodes to, with loads closed. -/
theorem exec_of_step_next {s t : State} (h : step s = .next t) :
    ∃ i, decode (instructionWord s) = .instruction i ∧ exec i (closeLoad s) = .next t := by
  obtain ⟨-, -, ⟨v, hd, rfl⟩ | ⟨op, a, d, j, hd, hr, rfl⟩⟩ := step_next_cases h
  · exact ⟨_, hd, exec_atV v _⟩
  · refine ⟨_, hd, ?_⟩
    rw [exec_compute, compute_in_range (s := closeLoad s) hr, operandValue_closeLoad, closeLoad_regD]

/-- An instruction that completes keeps the surroundings. -/
theorem exec_sameSurroundings {i : Instr} {s t : State} (h : exec i s = .next t) : SameSurroundings s t := by
  obtain ⟨v, rfl⟩ | ⟨op, a, d, j, rfl⟩ := Instr.cases_compute i
  · rw [exec_atV] at h
    cases h
    exact ⟨rfl, rfl, rfl, rfl, rfl⟩
  · exact exec_compute_sameSurroundings h

/-- A step that completes keeps the surroundings but for closing loads. -/
theorem step_sameSurroundings {s t : State} (h : step s = .next t) : SameSurroundings (closeLoad s) t := by
  obtain ⟨i, -, hi⟩ := exec_of_step_next h
  exact exec_sameSurroundings hi

/-! ### The program store -/

theorem hostStep_prog (s : State) : (hostStep s).1.prog = s.prog := by
  obtain ⟨t, ht⟩ | ⟨r, hr⟩ := step_cases s
  · rw [hostStep_of_next ht]
    exact (step_sameSurroundings ht).prog
  · rw [hostStep_of_fault hr, latchFault_prog]

theorem hostStep_loadOpen_of_closed (s : State) (h : s.loadOpen = false) : (hostStep s).1.loadOpen = false := by
  obtain ⟨t, ht⟩ | ⟨r, hr⟩ := step_cases s
  · rw [hostStep_of_next ht]
    exact (step_sameSurroundings ht).loadOpen
  · rw [hostStep_of_fault hr, latchFault_loadOpen, h]

theorem hostLoad_of_closed {s : State} (h : s.loadOpen = false) (words : List Word) : (hostLoad words s).1 = s := by
  rw [hostLoad_refused (.inl h)]

/-- A load that changes the program store is accepted. -/
theorem hostLoad_open_of_prog_ne {words : List Word} {s : State} (h : (hostLoad words s).1.prog ≠ s.prog) :
    s.loadOpen = true ∧ s.fault = none := by
  obtain ⟨-, heq⟩ | ⟨hopen, hf, -⟩ | ⟨hopen, hf, -⟩ := hostLoad_cases words s
  · exact absurd (by rw [heq]) h
  · exact ⟨hopen, hf⟩
  · exact ⟨hopen, hf⟩

/-- The fetch reads exactly the indices below the capacity. -/
theorem progRead_ok_iff (s : State) (i : Nat) : (∃ w, progRead s i = .ok w) ↔ i < 32768 := by
  refine ⟨fun ⟨w, hw⟩ => ?_, fun h => ⟨_, progRead_of_lt h⟩⟩
  by_contra hle
  cases (progRead_of_le (Nat.not_lt.mp hle)).symm.trans hw

/-- A request that changes the program store is an accepted load. -/
theorem serve_prog_ne {screenBase : Nat} {q : Request} {s : State} (h : (serve screenBase q s).1.prog ≠ s.prog) :
    ∃ words, q = .load words ∧ s.loadOpen = true ∧ s.fault = none := by
  cases q with
  | load words => exact ⟨words, rfl, hostLoad_open_of_prog_ne h⟩
  | step => exact absurd (hostStep_prog s) h
  | run n => exact absurd (hostRun_keeps (P := fun t => t.prog = s.prog) (fun t ht => (hostStep_prog t).trans ht) n rfl) h
  | readA | readD | readPC | readCell | readLen | sample => exact absurd rfl h

/-- Settles O38: instructions and steps keep the program store, an accepted load alone changes it, and closed loads stay closed. -/
theorem onlyALoadBeforeExecutionWritesTheProgram : Obligations.OnlyALoadBeforeExecutionWritesTheProgram := by
  refine ⟨progRead_ok_iff, fun i s t h => (exec_sameSurroundings h).prog, fun _ _ _ h => serve_prog_ne h, fun s t h => ?_,
    fun screenBase q s h => ?_⟩
  · obtain ⟨hprog, -, -, hopen, -⟩ := step_sameSurroundings h
    exact ⟨hprog, hopen⟩
  · refine serve_keeps (P := fun t => t.loadOpen = false) (fun words t ht => ?_) hostStep_loadOpen_of_closed screenBase q h
    rwa [hostLoad_of_closed ht]

/-! ### The length -/

/-- The state with another length recorded. -/
def withLen (n : Nat) (s : State) : State := { s with len := n }

/-- An outcome with its next state, if it is one, changed. -/
def mapNext (f : State → State) : Host.Outcome State Fault Refusal → Host.Outcome State Fault Refusal
  | .next t => .next (f t)
  | .fault r => .fault r
  | .refused q => .refused q

theorem routed_withLen (d : Dest) (r : Word) (n : Nat) (s : State) : routed d r (withLen n s) = withLen n (routed d r s) := by
  simp only [routed, routeA, routeD]
  split <;> split <;> split <;> rfl

theorem jumpOrAdvance_withLen (j : Jump) (r : Word) (n : Nat) (s : State) :
    jumpOrAdvance j r (withLen n s) = withLen n (jumpOrAdvance j r s) := by
  cases h : jumpTaken j r
  · rw [jumpOrAdvance_of_not_taken h, jumpOrAdvance_of_not_taken h]; rfl
  · rw [jumpOrAdvance_of_taken h, jumpOrAdvance_of_taken h]; rfl

theorem operandValue_withLen (a : Source) (n : Nat) (s : State) : operandValue a (withLen n s) = operandValue a s := by
  cases a <;> rfl

theorem compute_withLen (op : AluOp) (a : Source) (d : Dest) (j : Jump) (n : Nat) (s : State) :
    compute op a d j (withLen n s) = mapNext (withLen n) (compute op a d j s) := by
  obtain ⟨hr, h⟩ | ⟨rfl, hr, h⟩ | ⟨rfl, hm, hr, h⟩ := compute_cases op a d j s <;> rw [h]
  · rw [compute_in_range (s := withLen n s) hr, routed_withLen, jumpOrAdvance_withLen, operandValue_withLen]; rfl
  · exact compute_read_out_of_range (s := withLen n s) hr op d j
  · exact compute_write_out_of_range (s := withLen n s) hm hr op j

theorem executeUndecodable_withLen (a : Source) (c : BitVec 6) (n : Nat) (s : State) :
    executeUndecodable a c (withLen n s) = mapNext (withLen n) (executeUndecodable a c s) := by
  obtain ⟨hr, h⟩ | ⟨rfl, hr, h⟩ := executeUndecodable_cases a c s <;> rw [h]
  · simp only [executeUndecodable, resolveOperand_in_range (s := withLen n s) hr, raise]; rfl
  · simp only [executeUndecodable, resolveOperand_out_of_range (s := withLen n s) hr, raise]; rfl

theorem executeWord_withLen (w : Word) (n : Nat) (s : State) :
    executeWord w (withLen n s) = mapNext (withLen n) (executeWord w s) := by
  cases hd : decode w with
  | undecodableInstruction a c => simp only [executeWord_undecodable hd, executeUndecodable_withLen]
  | instruction i =>
    simp only [executeWord_instruction hd]
    obtain ⟨v, rfl⟩ | ⟨op, a, d, j, rfl⟩ := Instr.cases_compute i
    · rfl
    · simp only [exec_compute, compute_withLen]

/-- Recording another length before a step is recording it after: the step does not read it. -/
theorem step_withLen (n : Nat) (s : State) : step (withLen n s) = mapNext (withLen n) (step s) := by
  cases hf : s.fault with
  | some r => rw [step_of_fault hf, step_of_fault (s := withLen n s) hf]; rfl
  | none =>
    rw [step_of_no_fault hf, step_of_no_fault (s := withLen n s) hf]
    by_cases hpc : s.pc.toNat < 32768
    · rw [fetchDecodeExecute_of_lt hpc, fetchDecodeExecute_of_lt (s := withLen n s) hpc]
      exact executeWord_withLen (instructionWord s) n (closeLoad s)
    · rw [fetchDecodeExecute_of_le (Nat.not_lt.mp hpc), fetchDecodeExecute_of_le (s := withLen n s) (Nat.not_lt.mp hpc)]; rfl

/-- Settles O39: an accepted load records the number of its words, and the step commutes with recording another. -/
theorem noStepReadsTheLength : Obligations.NoStepReadsTheLength := by
  refine ⟨fun words s t h => ?_, fun _ _ => rfl, fun _ _ _ => rfl, fun s t n h => ?_, fun s r n h => ?_⟩
  · obtain ⟨-, hlen, rfl⟩ := hostLoad_of_ok h
    exact ⟨rfl, hlen⟩
  · exact (step_withLen n s).trans (by rw [h]; rfl)
  · exact (step_withLen n s).trans (by rw [h]; rfl)

/-! ### Registers and cells -/

section enabled
variable {d : Dest} {r : Word} {s t : State} (h : ResultRouted d r s t)
include h

theorem dest_d_of_regD_ne (hne : t.regD ≠ s.regD) : d.d = true := by
  by_contra hd
  exact hne (by rw [h.regD, if_neg hd])

theorem dest_a_of_regA_ne (hne : t.regA ≠ s.regA) : d.a = true := by
  by_contra ha
  exact hne (by rw [h.regA, if_neg ha])

/-- A changed cell is the one at the index of the old `A`, and the memory destination is enabled. -/
theorem dest_m_of_read_ne {k : Nat} (hne : Memory.read t.data k ≠ Memory.read s.data k) : k = effectiveAddress s ∧ d.m = true := by
  cases hm : d.m with
  | false => exact absurd (by rw [h.kept hm]) hne
  | true =>
    refine ⟨?_, rfl⟩
    by_contra hk
    exact hne ((h.stored hm).2 k hk)

end enabled

/-- An address instruction leaves bit 15 of `A` clear (R22). -/
theorem msb_ofNat_mask15 (w : Word) : (BitVec.ofNat 16 (mask15 w)).msb = false := by
  rw [BitVec.msb_eq_decide, ofNat_mask15_toNat]
  simp only [decide_eq_false_iff_not]
  omega

/-- Settles O40: an address word writes a literal to `A` alone, and a compute word routes its result to what it enables. -/
theorem stateChangesOnlyAsTheWordEnables : Obligations.StateChangesOnlyAsTheWordEnables := by
  intro s t hinv hstep
  obtain ⟨-, -, -, -, -, -, hwf, -⟩ := hinv
  obtain ⟨i, hd, hexec⟩ := exec_of_step_next hstep
  obtain ⟨v, rfl⟩ | ⟨op, a, d, j, rfl⟩ := Instr.cases_compute i
  · rw [exec_atV] at hexec
    cases hexec
    refine ⟨fun hne => absurd rfl hne, fun _ => .inl ⟨v, hd⟩, fun hset _ => ?_, fun k hne => absurd rfl hne⟩
    cases (msb_ofNat_mask15 v).symm.trans hset
  · have hrouted := exec_compute_resultRouted (s := closeLoad s) hwf hexec
    refine ⟨fun hne => ⟨op, a, d, j, hd, dest_d_of_regD_ne hrouted hne⟩,
      fun hne => .inr ⟨op, a, d, j, hd, dest_a_of_regA_ne hrouted hne⟩,
      fun hset hclear => ⟨op, a, d, j, hd, dest_a_of_regA_ne hrouted fun heq => ?_⟩, fun k hne => ?_⟩
    · rw [heq] at hset
      cases hclear.symm.trans hset
    · obtain ⟨hk, hm⟩ := dest_m_of_read_ne hrouted hne
      exact ⟨hk, op, a, d, j, hd, hm⟩

/-! ### Past the program -/

theorem decode_unlistedWord : decode 0#16 = .instruction (.atV 0#16) := decode_address rfl

/-- Settles O41: a cell past the program reads 0, the word of `@0`. -/
theorem pastTheProgramRunsAddressZero : Obligations.PastTheProgramRunsAddressZero := by
  intro s hf hpc hwithin hlen
  have hstep := step_of_fetch hf rfl hpc (Memory.read_beyond hwithin hlen) decode_unlistedWord
  exact ⟨_, hstep.trans (exec_atV ..), rfl, advance_pc _, rfl⟩

end Sys2Proof.Machine
end

section
/-! PROOFS. Construction, the load and the host (`spec/10_state.md` sections 6 and 7, `spec/70_reset_and_hazards.md` sections 1 to 3). -/

namespace Sys2Proof.Machine

/-! ### Construction -/

/-- Settles O42: each field of a constructed engine is the stated one by definition. -/
theorem constructionZeroesEverything : Obligations.ConstructionZeroesEverything :=
  ⟨rfl, rfl, fun _ => ⟨rfl, rfl, rfl, fun _ => rfl, fun _ => rfl, rfl, rfl, rfl, rfl⟩⟩

/-- An engine with nothing loaded that has executed nothing but `@0`: what construction leaves and such a step keeps. -/
structure Idle (s : State) : Prop where
  fault : s.fault = none
  prog : s.prog = []
  regA : s.regA = 0#16
  regD : s.regD = 0#16

theorem idle_construct (n : Nat) : Idle (State.construct n) := ⟨rfl, rfl, rfl, rfl⟩

section idle
variable {s : State} (h : Idle s)
include h

theorem decode_of_idle : decode (Memory.read s.prog s.pc.toNat) = .instruction (.atV 0#16) := by
  rw [h.prog]
  exact decode_unlistedWord

theorem step_of_idle (hpc : s.pc.toNat < 32768) : step s = exec (.atV 0#16) (closeLoad s) :=
  step_of_fetch h.fault rfl hpc rfl (decode_of_idle h)

/-- While indices are left, an idle engine steps to an idle engine one index further. -/
theorem idle_step (hpc : s.pc.toNat + 1 < 32768) : ∃ t, step s = .next t ∧ Idle t ∧ t.pc.toNat = s.pc.toNat + 1 := by
  refine ⟨_, (step_of_idle h (by omega)).trans (exec_atV ..), ⟨h.fault, h.prog, rfl, h.regD⟩, ?_⟩
  rw [advance_pc]
  exact Nat.mod_eq_of_lt hpc

end idle

/-- Within the program store, `k` steps of an idle engine lead `k` indices further. -/
theorem idle_run {k : Nat} {s : State} (h : Idle s) (hk : s.pc.toNat + k < 32768) :
    ∃ t, Host.Core.run Sys2Proof.core k s = .next t ∧ Idle t ∧ t.pc.toNat = s.pc.toNat + k := by
  induction k generalizing s with
  | zero => exact ⟨s, rfl, h, rfl⟩
  | succ k ih =>
    obtain ⟨u, hu, hidle, hpc⟩ := idle_step h (by omega)
    obtain ⟨t, ht, hidle', hpc'⟩ := ih hidle (by omega)
    exact ⟨t, (run_succ_of_next hu k).trans ht, hidle', by omega⟩

/-- Settles O43: a load leaves the registers and the data store of construction, and an engine with nothing loaded idles. -/
theorem entryNeedsNothingInitialised : Obligations.EntryNeedsNothingInitialised := by
  refine ⟨fun n t ht => ?_, fun n k hk => ?_⟩
  · obtain rfl | ⟨words, hload⟩ := ht
    · exact ⟨rfl, rfl, rfl, fun _ => rfl⟩
    · obtain ⟨-, -, rfl⟩ := hostLoad_of_ok hload
      exact ⟨rfl, rfl, rfl, fun _ => rfl⟩
  · have hpc0 : (State.construct n).pc.toNat = 0 := rfl
    obtain ⟨t, ht, hidle, hpc⟩ := idle_run (idle_construct n) (k := k) (by omega)
    exact ⟨t, ht, by omega, hidle.regA, hidle.regD, decode_of_idle hidle, step_of_idle hidle (by omega)⟩

/-! ### The load -/

/-- Writing a sequence keeps every cell at and beyond its end. -/
theorem Memory.read_writeFrom_of_le {m : Memory} (hm : Memory.wf m = true) {i k : Nat} {ws : List Word} (h : i + ws.length ≤ k) :
    Memory.read (Memory.writeFrom m i ws) k = Memory.read m k := by
  induction ws generalizing m i with
  | nil => rfl
  | cons w ws ih =>
    rw [List.length_cons] at h
    calc Memory.read (Memory.writeFrom (Memory.write m i w) (i + 1) ws) k
        = Memory.read (Memory.write m i w) k := ih (Memory.wf_write hm i w) (by omega)
      _ = Memory.read m k := by rw [Memory.read_write hm, if_neg (by omega)]

/-- Word `j` of a written sequence lies `j` cells after the index the sequence starts from. -/
theorem Memory.read_writeFrom_getElem {m : Memory} (hm : Memory.wf m = true) (i : Nat) {ws : List Word} {j : Nat}
    (h : j < ws.length) : Memory.read (Memory.writeFrom m i ws) (i + j) = ws[j] := by
  induction ws generalizing m i j with
  | nil => cases h
  | cons w ws ih =>
    cases j with
    | zero => exact Memory.read_writeFrom_first hm i w ws
    | succ j =>
      have hshift : i + (j + 1) = i + 1 + j := by omega
      rw [Memory.writeFrom, hshift]
      exact ih (Memory.wf_write hm i w) (i + 1) (Nat.lt_of_succ_lt_succ h)

/-- Settles O45: the written cells are those from 0 to the number of words, over an empty program store. -/
theorem loadCopiesTheWordsOrChangesNothing : Obligations.LoadCopiesTheWordsOrChangesNothing := by
  intro n words
  obtain ⟨hclosed | hlatched, -⟩ | ⟨-, -, hbig, heq⟩ | ⟨-, -, hfits, heq⟩ := hostLoad_cases words (State.construct n)
  · cases hclosed
  · cases hlatched
  · exact ⟨fun hle => absurd hbig (Nat.not_lt.mpr hle), fun _ => heq⟩
  · refine ⟨fun _ => ⟨_, heq, rfl, fun i hi => ?_, fun i hi => ?_, rfl⟩, fun hbig => absurd hbig (Nat.not_lt.mpr hfits)⟩
    · have hcell := Memory.read_writeFrom_getElem (m := []) rfl 0 hi
      rwa [Nat.zero_add] at hcell
    · exact Memory.read_writeFrom_of_le (m := []) rfl (by rwa [Nat.zero_add])

/-- No load is accepted any more: loads are closed or a fault is latched. -/
def LoadClosed (s : State) : Prop := s.loadOpen = false ∨ s.fault.isSome = true

/-- A host step closes loads, or latches the fault it reports. -/
theorem loadClosed_hostStep (s : State) : LoadClosed (hostStep s).1 := by
  obtain ⟨t, ht⟩ | ⟨r, hr⟩ := step_cases s
  · rw [hostStep_of_next ht]
    exact .inl (step_sameSurroundings ht).loadOpen
  · rw [hostStep_of_fault hr]
    exact .inr rfl

theorem loadClosed_hostRun_succ (n : Nat) (s : State) : LoadClosed (hostRun (n + 1) s).1 := by
  have hs := loadClosed_hostStep s
  obtain ⟨t, ht⟩ | ⟨r, hr⟩ := step_cases s
  · rw [hostStep_of_next ht] at hs
    rw [hostRun_succ_of_next ht]
    exact hostRun_keeps (fun u _ => loadClosed_hostStep u) n hs
  · rw [hostStep_of_fault hr] at hs
    rwa [hostRun_succ_of_fault hr]

/-- Settles O46: a load, a step and a run of at least one step each leave loads closed or a fault latched. -/
theorem loadIsAcceptedOnceBeforeTheFirstStep : Obligations.LoadIsAcceptedOnceBeforeTheFirstStep := by
  intro words s
  refine ⟨fun words' t ht => ?_, hostLoad_refused (loadClosed_hostStep s) words,
    fun n => hostLoad_refused (loadClosed_hostRun_succ n s) words⟩
  obtain ⟨-, -, rfl⟩ := hostLoad_of_ok ht
  exact hostLoad_refused (.inl rfl) words

/-! ### The run -/

/-- Where the machine's `n` steps complete, the host's run answers `ok` with the state they leave. -/
theorem hostRun_of_run_next {n : Nat} {s t : State} (h : Host.Core.run Sys2Proof.core n s = .next t) : hostRun n s = (t, .ok) := by
  induction n generalizing s with
  | zero => cases h; rfl
  | succ n ih =>
    obtain ⟨u, hu⟩ | ⟨r, hr⟩ := step_cases s
    · rw [hostRun_succ_of_next hu]
      exact ih ((run_succ_of_next hu n).symm.trans h)
    · cases (run_succ_of_fault hr n).symm.trans h

/-- Where one of the machine's `n` steps faults, the host's run reports that fault, latched in the state the steps before it left. -/
theorem hostRun_of_run_fault {n : Nat} {s : State} {r : Fault} (h : Host.Core.run Sys2Proof.core n s = .fault r) :
    ∃ k u, k < n ∧ Host.Core.run Sys2Proof.core k s = .next u ∧ step u = .fault r ∧ hostRun n s = (latchFault r u, .fault r) := by
  induction n generalizing s with
  | zero => cases h
  | succ n ih =>
    obtain ⟨t, ht⟩ | ⟨r', hr⟩ := step_cases s
    · obtain ⟨k, u, hk, hrun, hstep, hhost⟩ := ih ((run_succ_of_next ht n).symm.trans h)
      exact ⟨k + 1, u, by omega, (run_succ_of_next ht k).trans hrun, hstep, (hostRun_succ_of_next ht n).trans hhost⟩
    · cases (run_succ_of_fault hr n).symm.trans h
      exact ⟨0, s, by omega, rfl, hr, hostRun_succ_of_fault hr n⟩

/-- The machine's `n` steps complete or one of them faults. -/
theorem run_cases (n : Nat) (s : State) :
    (∃ t, Host.Core.run Sys2Proof.core n s = .next t) ∨ ∃ r, Host.Core.run Sys2Proof.core n s = .fault r := by
  induction n generalizing s with
  | zero => exact .inl ⟨s, rfl⟩
  | succ n ih =>
    obtain ⟨t, ht⟩ | ⟨r, hr⟩ := step_cases s
    · rw [run_succ_of_next ht]
      exact ih t
    · exact .inr ⟨r, run_succ_of_fault hr n⟩

theorem hostRun_ok_iff (n : Nat) (s : State) : (hostRun n s).2 = .ok ↔ SafeRun n s := by
  refine ⟨fun hok => ?_, fun ⟨t, ht⟩ => by rw [hostRun_of_run_next ht]⟩
  obtain hnext | ⟨r, hr⟩ := run_cases n s
  · exact hnext
  · obtain ⟨k, u, -, -, -, hhost⟩ := hostRun_of_run_fault hr
    rw [hhost] at hok
    cases hok

/-- Settles O47: by induction on the number of steps, for a run that completes and for one that faults. -/
theorem hostRunAgreesWithTheSteps : Obligations.HostRunAgreesWithTheSteps :=
  fun n s => ⟨hostRun_ok_iff n s, fun _ => hostRun_of_run_next, fun _ => hostRun_of_run_fault⟩

/-! ### The host's reads -/

/-- A load writes the program store, the length and whether loads are open, at most. -/
theorem hostLoad_frame (words : List Word) (s : State) :
    (hostLoad words s).1 =
      { s with prog := (hostLoad words s).1.prog, len := (hostLoad words s).1.len, loadOpen := (hostLoad words s).1.loadOpen } := by
  obtain ⟨-, heq⟩ | ⟨-, -, -, heq⟩ | ⟨-, -, -, heq⟩ := hostLoad_cases words s
  · rw [heq]
  · rw [heq]
  · rw [heq]; rfl

/-- Settles O48: a read answers from the state it leaves as it is, and of the requests that are no step and no run only the load
writes. -/
theorem hostReadsButDoesNotWrite : Obligations.HostReadsButDoesNotWrite := by
  intro screenBase s
  refine ⟨rfl, rfl, rfl, rfl, fun i hi => ?_, fun i hi => ?_, fun q hstep hrun => ?_⟩
  · rw [serve, hostReadCell, if_pos hi]
  · rw [serve, hostReadCell, if_neg (Nat.not_lt.mpr hi)]
  · cases q with
    | load words => exact hostLoad_frame words s
    | step => exact absurd rfl hstep
    | run n => exact absurd rfl (hrun n)
    | readA | readD | readPC | readCell | readLen | sample => rfl

end Sys2Proof.Machine
end

section
/-! PROOFS. The screen sampler (`spec/60_exceptions.md` section 9). -/

namespace Sys2Proof.Machine

theorem sample_of_le {screenBase : Nat} {s : State} (h : screenBase + 8192 ≤ s.dataWords) :
    sample screenBase s = .bitmap (bitmapOf screenBase s.data) := if_pos h

theorem sample_of_lt {screenBase : Nat} {s : State} (h : s.dataWords < screenBase + 8192) : sample screenBase s = .sampleRefused :=
  if_neg (Nat.not_le.mpr h)

theorem length_bitmapOf (screenBase : Nat) (m : Memory) : (bitmapOf screenBase m).length = 256 := by
  simp [bitmapOf, Config.screenHeight]

theorem length_of_mem_bitmapOf {screenBase : Nat} {m : Memory} {row : List Bool} (h : row ∈ bitmapOf screenBase m) :
    row.length = 512 := by
  obtain ⟨i, -, rfl⟩ := List.mem_map.mp h
  simp [Config.screenWidth]

/-- The pixel at a row and column of the bitmap (R162). -/
theorem bitmapOf_getElem? {screenBase : Nat} {m : Memory} {row col : Nat} (hrow : row < 256) (hcol : col < 512) :
    ((bitmapOf screenBase m)[row]?.bind fun pixels => pixels[col]?) = some (pixel screenBase m row col) := by
  simp [bitmapOf, Config.screenHeight, Config.screenWidth, hrow, hcol]

/-- A pixel of the screen is a bit of a window word. -/
theorem pixel_congr {screenBase : Nat} {m m' : Memory}
    (h : ∀ i, screenBase ≤ i → i < screenBase + 8192 → Memory.read m' i = Memory.read m i) {row col : Nat} (hrow : row < 256)
    (hcol : col < 512) : pixel screenBase m' row col = pixel screenBase m row col := by
  simp only [pixel, Config.screenRowWords, Config.pixelsPerWord]
  rw [h _ (by omega) (by omega)]

theorem bitmapOf_congr {screenBase : Nat} {m m' : Memory}
    (h : ∀ i, screenBase ≤ i → i < screenBase + 8192 → Memory.read m' i = Memory.read m i) :
    bitmapOf screenBase m' = bitmapOf screenBase m :=
  List.map_congr_left fun _ hrow => List.map_congr_left fun _ hcol =>
    pixel_congr h (List.mem_range.mp hrow) (List.mem_range.mp hcol)

/-- Settles O49: the bitmap is rows of pixels, and each pixel reads a cell of the window. -/
theorem samplerIsAReadOnlyProjectionOfItsWindow : Obligations.SamplerIsAReadOnlyProjectionOfItsWindow := by
  intro screenBase s
  refine ⟨rfl, fun h => ⟨_, sample_of_le h, length_bitmapOf .., fun _ => length_of_mem_bitmapOf⟩, fun s' hcap hread => ?_⟩
  by_cases h : screenBase + 8192 ≤ s.dataWords
  · rw [sample_of_le h, sample_of_le (hcap ▸ h), bitmapOf_congr hread]
  · have hlt := Nat.not_le.mp h
    rw [sample_of_lt hlt, sample_of_lt (hcap ▸ hlt)]

/-- The pixel a bit of a window word is: 32 words a row, 16 pixels a word, the least significant bit first. -/
theorem pixel_of_bit (screenBase : Nat) (m : Memory) (word : Nat) {bit : Nat} (hbit : bit < 16) :
    pixel screenBase m (word / 32) (16 * (word % 32) + bit) = (Memory.read m (screenBase + word)).getLsbD bit := by
  simp only [pixel, Config.screenRowWords, Config.pixelsPerWord]
  have hindex : screenBase + 32 * (word / 32) + (16 * (word % 32) + bit) / 16 = screenBase + word := by omega
  have hcolumn : (16 * (word % 32) + bit) % 16 = bit := by omega
  rw [hindex, hcolumn]

/-- Settles O50: the row and column of a bit are in the bitmap, and the pixel there is that bit. -/
theorem eachWindowBitIsItsPixel : Obligations.EachWindowBitIsItsPixel := by
  intro screenBase s b hb word hword bit hbit
  by_cases h : screenBase + 8192 ≤ s.dataWords
  · rw [sample_of_le h] at hb
    cases hb
    rw [bitmapOf_getElem? (by omega) (by omega), pixel_of_bit screenBase s.data word hbit]
  · rw [sample_of_lt (Nat.not_le.mp h)] at hb
    cases hb

end Sys2Proof.Machine
end
